-- ==== Sys2Proof/Word.lean ====
section
/-! DEFINITION. The words of the block: 00_scope.md rule R12 gives every width. -/
namespace Sys2Proof

/-- A byte: CRC, STAT, BSR, CFG, each FRAME byte and each TABLE entry (R12). -/
abbrev Byte := BitVec 8

/-- A command word `cmd[15:0]` (30_encoding.md R60). -/
abbrev CmdWord := BitVec 16

/-- The OP field of a command word, 5 bits (R12). -/
abbrev Op := BitVec 5

/-- The IDX field of a command word, 3 bits (R12). -/
abbrev Idx := BitVec 3

/-- The result register's word, 64 bits (R12, 10_state.md R24). -/
abbrev ResWord := BitVec 64

/-- The frame input `frame_in[55:0]` (20_memory.md R42). -/
abbrev FrameIn := BitVec 56

end Sys2Proof
end

