-- ==== Sys2Proof/Config.lean ====
section
/-! DEFINITION. What an instance of the block fixes: the open parameter `FP_FMT`. -/
namespace Sys2Proof

/-- The two values of the parameter `FP_FMT` (00_scope.md R7, 43_convert.md R140). -/
inductive FpFmt where
  | binary32
  | binary64
deriving DecidableEq, Repr, Inhabited

/-- `FP_FMT` of this instance. The spec leaves it OPEN (R7, 92_eei_decisions.md D6), so it has no body:
no proof can see which of the two it is (log entry 3). -/
opaque Config.fpFmt : FpFmt

end Sys2Proof
end

