-- ==== Sys2Proof/Syntax.lean ====
section
/-! DEFINITION. The 24 commands (30_encoding.md R63), the words a decoder turns away (R65), and the assembler's
source lines and pseudo-instructions (R67, R68). -/
namespace Sys2Proof

/-- One constructor per row of spec/opcode_table.json. An operand is a field of the command word that the
command uses (R63); `frame_in`, the second operand of FRAME_LOAD, comes from the port and is not encoded (R60). -/
inductive Instr where
  | nop
  | crcInit
  | crcStep (data : Byte)
  | crcRead
  | crcFrame
  | crcCheck
  | bsrRead
  | cfgRead
  | frameClear
  | frameWrite (idx : Idx) (data : Byte)
  | frameLoad
  | frameRead (idx : Idx)
  | humBits
  | tempBits
  | humPct
  | tempC
  | statLoad (data : Byte)
  | statFromFrame
  | statRead
  | isBusy
  | isCal
  | isNormal
  | isCyclic
  | isCommand
deriving DecidableEq, Repr

/-- Why a word is no command: its OP is one of the reserved values 0x18 to 0x1F (R65), which the error
records (60_exceptions.md R170). -/
inductive DecodeReject where
  | reservedOp (op : Op)
deriving DecidableEq, Repr

/-- A number as an assembler line writes it (R67): in decimal, or as `0x` and hex digits. -/
inductive AsmNum where
  | dec (n : Nat)
  | hex (n : Nat)
deriving DecidableEq, Repr

/-- An assembler line (R67) after its comment is taken off: a mnemonic and its operands, left to right. -/
structure AsmLine where
  mnemonic : String
  operands : List AsmNum
deriving DecidableEq, Repr

/-- What makes a line an assembler error (R67). -/
inductive AsmError where
  | unknownMnemonic
  | wrongOperands
  | idxOutOfRange
  | dataOutOfRange
deriving DecidableEq, Repr

/-- The pseudo-instructions (R68). -/
inductive Pseudo where
  | crcBytes (bs : List Byte)
  | frameSet (b0 b1 b2 b3 b4 b5 b6 : Byte)
  | busyOfFrame
deriving DecidableEq, Repr

end Sys2Proof
end

