-- ==== Sys2Proof/WellFormed.lean ====
section
/-! DEFINITION. Two checks: a command whose index, if it uses one, is a frame address (60_exceptions.md R172 calls
it a legal IDX), and an assembler line whose operands are as 30_encoding.md R67 says. -/
namespace Sys2Proof

/-- The frame indices are 0 to 6 (30_encoding.md R61: 7 raises BAD_INDEX). -/
def Idx.legal (i : Idx) : Bool := i.toNat ≤ 6

/-- "Every defined command with a legal IDX" (R172). A command that is not well formed still decodes, encodes and
executes: it raises BAD_INDEX (R67). -/
def Instr.wellFormed : Instr → Bool
  | .frameWrite idx _ => Idx.legal idx
  | .frameRead idx => Idx.legal idx
  | .nop | .crcInit | .crcStep _ | .crcRead | .crcFrame | .crcCheck | .bsrRead | .cfgRead
  | .frameClear | .frameLoad | .humBits | .tempBits | .humPct | .tempC
  | .statLoad _ | .statFromFrame | .statRead | .isBusy | .isCal | .isNormal | .isCyclic | .isCommand => true

/-- `idx` is a decimal number from 0 to 7 (R67). -/
def AsmNum.isIdx : AsmNum → Bool
  | .dec n => n ≤ 7
  | .hex _ => false

/-- `data` is a number from 0 to 255, in decimal or in hex (R67). -/
def AsmNum.isData : AsmNum → Bool
  | .dec n => n ≤ 255
  | .hex n => n ≤ 255

/-- The commands whose line is the mnemonic alone (R67). -/
def bareCommands : List (String × Instr) :=
  [("NOP", .nop), ("CRC_INIT", .crcInit), ("CRC_READ", .crcRead), ("CRC_FRAME", .crcFrame),
   ("CRC_CHECK", .crcCheck), ("BSR_READ", .bsrRead), ("CFG_READ", .cfgRead), ("FRAME_CLEAR", .frameClear)] ++
  [("FRAME_LOAD", .frameLoad), ("HUM_BITS", .humBits), ("TEMP_BITS", .tempBits), ("HUM_PCT", .humPct),
   ("TEMP_C", .tempC), ("STAT_FROM_FRAME", .statFromFrame), ("STAT_READ", .statRead)] ++
  [("IS_BUSY", .isBusy), ("IS_CAL", .isCal), ("IS_NORMAL", .isNormal), ("IS_CYCLIC", .isCyclic),
   ("IS_COMMAND", .isCommand)]

/-- A line the assembler takes (R67): a known mnemonic, its operands' number and range right. -/
def AsmLine.wellFormed (l : AsmLine) : Bool :=
  match l.operands with
  | [] => (bareCommands.lookup l.mnemonic).isSome
  | [a] => ((l.mnemonic == "CRC_STEP" || l.mnemonic == "STAT_LOAD") && a.isData) ||
      (l.mnemonic == "FRAME_READ" && a.isIdx)
  | [a, b] => l.mnemonic == "FRAME_WRITE" && a.isIdx && b.isData
  | _ => false

end Sys2Proof
end

