-- ==== Sys2Proof/Decode.lean ====
section
/-! DEFINITION. The decoder of 30_encoding.md R61 to R65, total on the 65536 words; after it the encoder, written from
the same table; then the host's view of the opcode table, the assembler of R67 and the expansions of R68.
A command is one word at a port and is not stored (20_memory.md R51), so it has no byte order (log entry 7). -/
namespace Sys2Proof

/-- `OP = cmd[15:11]` (R61). -/
def opField (w : CmdWord) : Op := w.extractLsb' 11 5

/-- `IDX = cmd[10:8]` (R61). -/
def idxField (w : CmdWord) : Idx := w.extractLsb' 8 3

/-- `DATA = cmd[7:0]` (R61). -/
def dataField (w : CmdWord) : Byte := w.extractLsb' 0 8

/-- The opcode map of R63: OP alone tells the commands apart; bits a command does not use are not looked at (R64);
0x18 to 0x1F are reserved (R65). -/
def decode (w : CmdWord) : Except DecodeReject Instr :=
  match opField w with
  | 0x00#5 => .ok .nop
  | 0x01#5 => .ok .crcInit
  | 0x02#5 => .ok (.crcStep (dataField w))
  | 0x03#5 => .ok .crcRead
  | 0x04#5 => .ok .crcFrame
  | 0x05#5 => .ok .crcCheck
  | 0x06#5 => .ok .bsrRead
  | 0x07#5 => .ok .cfgRead
  | 0x08#5 => .ok .frameClear
  | 0x09#5 => .ok (.frameWrite (idxField w) (dataField w))
  | 0x0A#5 => .ok .frameLoad
  | 0x0B#5 => .ok (.frameRead (idxField w))
  | 0x0C#5 => .ok .humBits
  | 0x0D#5 => .ok .tempBits
  | 0x0E#5 => .ok .humPct
  | 0x0F#5 => .ok .tempC
  | 0x10#5 => .ok (.statLoad (dataField w))
  | 0x11#5 => .ok .statFromFrame
  | 0x12#5 => .ok .statRead
  | 0x13#5 => .ok .isBusy
  | 0x14#5 => .ok .isCal
  | 0x15#5 => .ok .isNormal
  | 0x16#5 => .ok .isCyclic
  | 0x17#5 => .ok .isCommand
  | op => .error (.reservedOp op)

/-- A command word from its three fields (R60). -/
def cmdWord (op : Op) (idx : Idx) (data : Byte) : CmdWord := op ++ idx ++ data

/-- The word of a command, its ignored bits zero as an assembler writes them (R63, R64). -/
def encode : Instr → CmdWord
  | .nop => cmdWord 0x00#5 0#3 0#8
  | .crcInit => cmdWord 0x01#5 0#3 0#8
  | .crcStep data => cmdWord 0x02#5 0#3 data
  | .crcRead => cmdWord 0x03#5 0#3 0#8
  | .crcFrame => cmdWord 0x04#5 0#3 0#8
  | .crcCheck => cmdWord 0x05#5 0#3 0#8
  | .bsrRead => cmdWord 0x06#5 0#3 0#8
  | .cfgRead => cmdWord 0x07#5 0#3 0#8
  | .frameClear => cmdWord 0x08#5 0#3 0#8
  | .frameWrite idx data => cmdWord 0x09#5 idx data
  | .frameLoad => cmdWord 0x0A#5 0#3 0#8
  | .frameRead idx => cmdWord 0x0B#5 idx 0#8
  | .humBits => cmdWord 0x0C#5 0#3 0#8
  | .tempBits => cmdWord 0x0D#5 0#3 0#8
  | .humPct => cmdWord 0x0E#5 0#3 0#8
  | .tempC => cmdWord 0x0F#5 0#3 0#8
  | .statLoad data => cmdWord 0x10#5 0#3 data
  | .statFromFrame => cmdWord 0x11#5 0#3 0#8
  | .statRead => cmdWord 0x12#5 0#3 0#8
  | .isBusy => cmdWord 0x13#5 0#3 0#8
  | .isCal => cmdWord 0x14#5 0#3 0#8
  | .isNormal => cmdWord 0x15#5 0#3 0#8
  | .isCyclic => cmdWord 0x16#5 0#3 0#8
  | .isCommand => cmdWord 0x17#5 0#3 0#8

/-- The command the decoder reads from an opcode-table row's word `w` of `nbits` bits; the bits above `nbits` are 0. -/
def decodeTableWord (nbits w : Nat) : Option Instr :=
  match decode (BitVec.ofNat 16 (w % 2 ^ nbits)) with
  | .ok i => some i
  | .error _ => none

/-- The number an assembler line writes. -/
def AsmNum.value : AsmNum → Nat
  | .dec n => n
  | .hex n => n

/-- An `idx` operand (R67): out of range is an error; nothing wraps or truncates. -/
def AsmNum.toIdx (a : AsmNum) : Except AsmError Idx :=
  if a.isIdx then .ok (BitVec.ofNat 3 a.value) else .error .idxOutOfRange

/-- A `data` operand (R67): out of range is an error; nothing wraps or truncates. -/
def AsmNum.toData (a : AsmNum) : Except AsmError Byte :=
  if a.isData then .ok (BitVec.ofNat 8 a.value) else .error .dataOutOfRange

/-- A `data` operand given to a command. -/
def asmData (f : Byte → Instr) (a : AsmNum) : Except AsmError Instr :=
  match a.toData with
  | .ok d => .ok (f d)
  | .error e => .error e

/-- The operands `idx, data` of FRAME_WRITE. -/
def asmFrameWrite (a b : AsmNum) : Except AsmError Instr :=
  match a.toIdx with
  | .ok i => asmData (.frameWrite i) b
  | .error e => .error e

/-- The operand `idx` of FRAME_READ. -/
def asmFrameRead (a : AsmNum) : Except AsmError Instr :=
  match a.toIdx with
  | .ok i => .ok (.frameRead i)
  | .error e => .error e

/-- The four commands with operands, and the operands each takes (R67). -/
def asmWithOperands (mnemonic : String) (operands : List AsmNum) : Except AsmError Instr :=
  if mnemonic = "CRC_STEP" then
    match operands with
    | [a] => asmData .crcStep a
    | _ => .error .wrongOperands
  else if mnemonic = "STAT_LOAD" then
    match operands with
    | [a] => asmData .statLoad a
    | _ => .error .wrongOperands
  else if mnemonic = "FRAME_WRITE" then
    match operands with
    | [a, b] => asmFrameWrite a b
    | _ => .error .wrongOperands
  else if mnemonic = "FRAME_READ" then
    match operands with
    | [a] => asmFrameRead a
    | _ => .error .wrongOperands
  else .error .unknownMnemonic

/-- The assembler of R67, on a line already cut into its mnemonic and operands. -/
def assemble (l : AsmLine) : Except AsmError Instr :=
  match bareCommands.lookup l.mnemonic with
  | some i =>
    match l.operands with
    | [] => .ok i
    | _ => .error .wrongOperands
  | none => asmWithOperands l.mnemonic l.operands

/-- A command's line (R67), its operands in decimal; the mnemonics are those of the opcode table. -/
def disassemble : Instr → AsmLine
  | .nop => ⟨"NOP", []⟩
  | .crcInit => ⟨"CRC_INIT", []⟩
  | .crcStep data => ⟨"CRC_STEP", [.dec data.toNat]⟩
  | .crcRead => ⟨"CRC_READ", []⟩
  | .crcFrame => ⟨"CRC_FRAME", []⟩
  | .crcCheck => ⟨"CRC_CHECK", []⟩
  | .bsrRead => ⟨"BSR_READ", []⟩
  | .cfgRead => ⟨"CFG_READ", []⟩
  | .frameClear => ⟨"FRAME_CLEAR", []⟩
  | .frameWrite idx data => ⟨"FRAME_WRITE", [.dec idx.toNat, .dec data.toNat]⟩
  | .frameLoad => ⟨"FRAME_LOAD", []⟩
  | .frameRead idx => ⟨"FRAME_READ", [.dec idx.toNat]⟩
  | .humBits => ⟨"HUM_BITS", []⟩
  | .tempBits => ⟨"TEMP_BITS", []⟩
  | .humPct => ⟨"HUM_PCT", []⟩
  | .tempC => ⟨"TEMP_C", []⟩
  | .statLoad data => ⟨"STAT_LOAD", [.dec data.toNat]⟩
  | .statFromFrame => ⟨"STAT_FROM_FRAME", []⟩
  | .statRead => ⟨"STAT_READ", []⟩
  | .isBusy => ⟨"IS_BUSY", []⟩
  | .isCal => ⟨"IS_CAL", []⟩
  | .isNormal => ⟨"IS_NORMAL", []⟩
  | .isCyclic => ⟨"IS_CYCLIC", []⟩
  | .isCommand => ⟨"IS_COMMAND", []⟩

/-- The expansions of the pseudo-instructions (R68). -/
def Pseudo.expand : Pseudo → List Instr
  | .crcBytes bs => .crcInit :: bs.map .crcStep
  | .frameSet b0 b1 b2 b3 b4 b5 b6 =>
    [.frameWrite 0 b0, .frameWrite 1 b1, .frameWrite 2 b2, .frameWrite 3 b3, .frameWrite 4 b4, .frameWrite 5 b5,
     .frameWrite 6 b6]
  | .busyOfFrame => [.statFromFrame, .isBusy]

end Sys2Proof
end

