-- ==== Sys2Proof/Machine/State.lean ====
section
/-! DEFINITION. The block's state (10_state.md R20), the host's interactions (00_scope.md R5), the reasons a step can stop,
and the state after reset (70_reset_and_hazards.md R190). -/
namespace Sys2Proof.Machine

/-- The frame buffer (20_memory.md R40) as a list of (index, byte) cells in one canonical form: indices strictly rising,
each 0 to 6, no cell holding 0x00, which is what an unlisted index reads as (10_state.md R22: the reset content;
log entry 5). -/
abbrev Memory := List Host.Cell

/-- What the host does to the block (R5): the reset event, or a command word with the value it holds on the
frame input during that step. -/
inductive HostEvent where
  | reset
  | command (cmd : CmdWord) (frameIn : FrameIn)
deriving DecidableEq, Repr

/-- The two errors (60_exceptions.md R170). They are recorded in BSR and the block goes on (R171, R174), so they are no
`Fault` (log entry 4). -/
inductive ErrCause where
  | illegalOp
  | badIndex
deriving DecidableEq, Repr

/-- The named operating modes (41_status.md R101). -/
inductive Mode where
  | normal
  | cyclic
  | command
deriving DecidableEq, Repr

/-- Reasons the block stops: there are none. Every command completes or records an error and the next command is
accepted (R172, R174); no instruction and no step raises a fault (log entry 4). -/
inductive Fault where
deriving DecidableEq, Repr

/-- Reasons the model has no meaning for a step. -/
inductive Refusal where
  /-- Raised only by an arm of `exec` whose instruction has no meaning yet; safe: the run stops. No arm raises it. -/
  | notModelled (mnemonic : String)
deriving DecidableEq, Repr

/-- R20's parts, less the constant ROM TABLE (`crcTable`, log entry 6); and two fields of the model's own, the
host's side of R5 (log entry 1). -/
structure State where
  /-- CRC, the accumulator (R21). -/
  crc : Byte
  /-- FRAME[0] to FRAME[6] (R22). -/
  frame : Memory
  /-- STAT, the status byte (R23). -/
  stat : Byte
  /-- RES, the result register (R24). -/
  res : ResWord
  /-- BSR, the block status register (R25). -/
  bsr : Byte
  /-- CFG's one home: the hardwired `FP_FMT` that FPF reports (R26); the 8-bit register is `State.cfg`. -/
  fpFmt : FpFmt
  /-- The model's own: the value on the `frame_in` port in the step being executed (R5, R195). -/
  frameIn : FrameIn
  /-- The model's own: what the host will still do, oldest first (R5, R13). -/
  pending : List HostEvent
deriving DecidableEq, Repr

/-- The state right after the reset event (R190): CRC = 0xFF, FRAME all 0x00, STAT = 0x00, RES = 0, BSR = 0x00, CFG from
`FP_FMT`; the host has presented nothing yet (log entry 1). -/
def State.reset : State where
  crc := 0xFF
  frame := []
  stat := 0x00
  res := 0
  bsr := 0x00
  fpFmt := Config.fpFmt
  frameIn := 0
  pending := []

end Sys2Proof.Machine
end

