-- ==== Sys2Proof/Machine/Flags.lean ====
section
/-! DEFINITION. The fields of STAT and their tests (41_status.md R100, R101, R106 to R110), the fields of BSR (10_state.md
R25) and the error codes (60_exceptions.md R170). -/
namespace Sys2Proof.Machine

/-- BUSY = STAT[7] (R28, R100). -/
def statBusy (st : Byte) : BitVec 1 := st.extractLsb' 7 1

/-- MODE = STAT[6:5] (R28, R100). -/
def statMode (st : Byte) : BitVec 2 := st.extractLsb' 5 2

/-- CALEN = STAT[3] (R28, R100). -/
def statCalen (st : Byte) : BitVec 1 := st.extractLsb' 3 1

/-- The mode a MODE value stands for (R101): 00 normal, 01 cyclic, 10 and 11 command. -/
def modeOf (m : BitVec 2) : Mode :=
  match m with
  | 0b00#2 => .normal
  | 0b01#2 => .cyclic
  | 0b10#2 => .command
  | _ => .command

/-- `is_busy()` as the mask test of R106. -/
def isBusyTest (st : Byte) : Bool := st &&& 0x80 != 0

/-- `is_calibration_enabled()` as the mask test of R107. -/
def isCalTest (st : Byte) : Bool := st &&& 0x08 != 0

/-- `is_normal_mode()` as the mask test of R108. -/
def isNormalTest (st : Byte) : Bool := st &&& 0x60 == 0x00

/-- `is_cyclic_mode()` as the mask test of R109. -/
def isCyclicTest (st : Byte) : Bool := st &&& 0x60 == 0x20

/-- `is_command_mode()` as the mask test of R110. -/
def isCommandTest (st : Byte) : Bool := st &&& 0x40 != 0

/-- ERR = BSR[0] (R25). -/
def bsrErr (b : Byte) : BitVec 1 := b.extractLsb' 0 1

/-- ECAUSE = BSR[2:1] (R25). -/
def bsrEcause (b : Byte) : BitVec 2 := b.extractLsb' 1 2

/-- EOP = BSR[7:3] (R25). -/
def bsrEop (b : Byte) : Op := b.extractLsb' 3 5

/-- BSR from its fields (R25). -/
def bsrOf (eop : Op) (ecause : BitVec 2) (err : BitVec 1) : Byte := eop ++ ecause ++ err

/-- The ECAUSE code of an error (R170). -/
def ErrCause.code : ErrCause → BitVec 2
  | .illegalOp => 0b01
  | .badIndex => 0b10

/-- BSR after `raise E(op)` (R171): the first error since reset writes ECAUSE and EOP; ERR becomes 1. -/
def bsrRaise (e : ErrCause) (op : Op) (b : Byte) : Byte :=
  if bsrErr b = 0 then bsrOf op e.code 1 else bsrOf (bsrEop b) (bsrEcause b) 1

/-- FPF, bit 0 of CFG (R26). -/
def fpfBit : FpFmt → BitVec 1
  | .binary32 => 0
  | .binary64 => 1

/-- CFG (R26): FPF in bit 0, bits 7:1 hardwired to 0. -/
def cfgOf (f : FpFmt) : Byte := (0#7) ++ fpfBit f

/-- The 8-bit CFG register of a state (R26). -/
def State.cfg (s : State) : Byte := cfgOf s.fpFmt

end Sys2Proof.Machine
end

