-- ==== Sys2Proof/Machine/Ops.lean ====
section
/-! DEFINITION. The operations over the frame buffer (20_memory.md), the registers (10_state.md), the CRC table and the CRC
(40_crc.md), and raising an error (60_exceptions.md R171), which every command shares. -/
namespace Sys2Proof.Machine

/-- What an index that memory does not list reads as: 0x00, the reset content (10_state.md R22). -/
def unlistedByte : Byte := 0x00

/-- `MemRead(a, 1)` (00_scope.md R11). -/
def Memory.read : Memory → Nat → Byte
  | [], _ => unlistedByte
  | (b, v) :: m, a => if b = a then v else Memory.read m a

/-- Memory without its cell at `a`. -/
def Memory.erase : Memory → Nat → Memory
  | [], _ => []
  | (b, v) :: m, a => if b = a then Memory.erase m a else (b, v) :: Memory.erase m a

/-- Memory with a cell put in before the first one at a higher index. -/
def Memory.insert : Memory → Nat → Byte → Memory
  | [], a, v => [(a, v)]
  | (b, w) :: m, a, v => if a < b then (a, v) :: (b, w) :: m else (b, w) :: Memory.insert m a v

/-- `MemWrite(a, 1, v)` (R11), in canonical form: writing the byte an unlisted index reads as removes the cell. -/
def Memory.write (m : Memory) (a : Nat) (v : Byte) : Memory :=
  if v = unlistedByte then Memory.erase m a else Memory.insert (Memory.erase m a) a v

/-- Memory with every byte 0x00: the reset content, and what FRAME_CLEAR leaves (42_frame.md R122). -/
def Memory.zeros : Memory := []

/-- Memory in which index `a` and the indices after it hold the listed bytes in order and every other index 0x00. -/
def Memory.ofBytesFrom (a : Nat) : List Byte → Memory
  | [] => Memory.zeros
  | v :: vs => Memory.write (Memory.ofBytesFrom (a + 1) vs) a v

/-- The indices of memory rise strictly, from `lo` on, stay below 7 (R40), and no cell holds the unlisted byte. -/
def Memory.wfFrom (lo : Nat) : Memory → Bool
  | [] => true
  | (b, v) :: m => decide (lo ≤ b) && decide (b < 7) && decide (v ≠ unlistedByte) && Memory.wfFrom (b + 1) m

/-- The canonical form of the frame buffer. -/
def Memory.wf (m : Memory) : Bool := Memory.wfFrom 0 m

/-- Rows 0x00 to 0x30 of TABLE as 40_crc.md R81 lists them. -/
def crcRows0 : List Byte :=
  [0x00, 0x31, 0x62, 0x53, 0xC4, 0xF5, 0xA6, 0x97, 0xB9, 0x88, 0xDB, 0xEA, 0x7D, 0x4C, 0x1F, 0x2E] ++
  [0x43, 0x72, 0x21, 0x10, 0x87, 0xB6, 0xE5, 0xD4, 0xFA, 0xCB, 0x98, 0xA9, 0x3E, 0x0F, 0x5C, 0x6D] ++
  [0x86, 0xB7, 0xE4, 0xD5, 0x42, 0x73, 0x20, 0x11, 0x3F, 0x0E, 0x5D, 0x6C, 0xFB, 0xCA, 0x99, 0xA8] ++
  [0xC5, 0xF4, 0xA7, 0x96, 0x01, 0x30, 0x63, 0x52, 0x7C, 0x4D, 0x1E, 0x2F, 0xB8, 0x89, 0xDA, 0xEB]

/-- Rows 0x40 to 0x70 of TABLE. -/
def crcRows4 : List Byte :=
  [0x3D, 0x0C, 0x5F, 0x6E, 0xF9, 0xC8, 0x9B, 0xAA, 0x84, 0xB5, 0xE6, 0xD7, 0x40, 0x71, 0x22, 0x13] ++
  [0x7E, 0x4F, 0x1C, 0x2D, 0xBA, 0x8B, 0xD8, 0xE9, 0xC7, 0xF6, 0xA5, 0x94, 0x03, 0x32, 0x61, 0x50] ++
  [0xBB, 0x8A, 0xD9, 0xE8, 0x7F, 0x4E, 0x1D, 0x2C, 0x02, 0x33, 0x60, 0x51, 0xC6, 0xF7, 0xA4, 0x95] ++
  [0xF8, 0xC9, 0x9A, 0xAB, 0x3C, 0x0D, 0x5E, 0x6F, 0x41, 0x70, 0x23, 0x12, 0x85, 0xB4, 0xE7, 0xD6]

/-- Rows 0x80 to 0xB0 of TABLE. -/
def crcRows8 : List Byte :=
  [0x7A, 0x4B, 0x18, 0x29, 0xBE, 0x8F, 0xDC, 0xED, 0xC3, 0xF2, 0xA1, 0x90, 0x07, 0x36, 0x65, 0x54] ++
  [0x39, 0x08, 0x5B, 0x6A, 0xFD, 0xCC, 0x9F, 0xAE, 0x80, 0xB1, 0xE2, 0xD3, 0x44, 0x75, 0x26, 0x17] ++
  [0xFC, 0xCD, 0x9E, 0xAF, 0x38, 0x09, 0x5A, 0x6B, 0x45, 0x74, 0x27, 0x16, 0x81, 0xB0, 0xE3, 0xD2] ++
  [0xBF, 0x8E, 0xDD, 0xEC, 0x7B, 0x4A, 0x19, 0x28, 0x06, 0x37, 0x64, 0x55, 0xC2, 0xF3, 0xA0, 0x91]

/-- Rows 0xC0 to 0xF0 of TABLE. -/
def crcRowsC : List Byte :=
  [0x47, 0x76, 0x25, 0x14, 0x83, 0xB2, 0xE1, 0xD0, 0xFE, 0xCF, 0x9C, 0xAD, 0x3A, 0x0B, 0x58, 0x69] ++
  [0x04, 0x35, 0x66, 0x57, 0xC0, 0xF1, 0xA2, 0x93, 0xBD, 0x8C, 0xDF, 0xEE, 0x79, 0x48, 0x1B, 0x2A] ++
  [0xC1, 0xF0, 0xA3, 0x92, 0x05, 0x34, 0x67, 0x56, 0x78, 0x49, 0x1A, 0x2B, 0xBC, 0x8D, 0xDE, 0xEF] ++
  [0x82, 0xB3, 0xE0, 0xD1, 0x46, 0x77, 0x24, 0x15, 0x3B, 0x0A, 0x59, 0x68, 0xFF, 0xCE, 0x9D, 0xAC]

/-- TABLE, the constant ROM of 256 bytes (R81, 10_state.md R30). -/
def crcTable : List Byte := crcRows0 ++ crcRows4 ++ crcRows8 ++ crcRowsC

/-- `TABLE[k]` (00_scope.md R11). -/
def tableAt (k : Byte) : Byte := crcTable.getD k.toNat 0

/-- The CRC initial value (00_scope.md R6). -/
def crcInitValue : Byte := 0xFF

/-- One table step (40_crc.md R82): the next CRC from the current one and the next byte. -/
def crcNext (c b : Byte) : Byte := tableAt (c ^^^ b)

/-- The loop of R82 from a given register value. -/
def crcFrom (c : Byte) : List Byte → Byte
  | [] => c
  | b :: bs => crcFrom (crcNext c b) bs

/-- `crc8(b)` (R82). -/
def crc8 (bs : List Byte) : Byte := crcFrom crcInitValue bs

/-- The six bytes the frame check covers, FRAME[0] to FRAME[5] (40_crc.md R87). -/
def frameBytes6 (m : Memory) : List Byte :=
  [m.read 0, m.read 1, m.read 2, m.read 3, m.read 4, m.read 5]

/-- `CRC <- v`. -/
def State.setCrc (s : State) (v : Byte) : State := { s with crc := v }

/-- FRAME takes new contents. -/
def State.setFrame (s : State) (m : Memory) : State := { s with frame := m }

/-- `STAT <- v`. -/
def State.setStat (s : State) (v : Byte) : State := { s with stat := v }

/-- `RES <- v`. -/
def State.setRes (s : State) (v : ResWord) : State := { s with res := v }

/-- BSR takes a new value: by an error (`State.raise`) and by reset only (10_state.md R25). -/
def State.setBsr (s : State) (v : Byte) : State := { s with bsr := v }

/-- `raise E(op)` (R171): the BSR write and nothing else; the block goes on with the next command (R174). -/
def State.raise (s : State) (e : ErrCause) (op : Op) : State := s.setBsr (bsrRaise e op s.bsr)

/-- The state in which the step of a pending command runs: the command is taken off what is pending and the
port holds its frame input (R195). -/
def State.accept (s : State) (f : FrameIn) (rest : List HostEvent) : State :=
  { s with frameIn := f, pending := rest }

/-- The reset event (70_reset_and_hazards.md R190): every register to its reset value in one step; CFG, hardwired, and what
is on the host's side of the interface are no part of it (log entry 8). -/
def State.resetBlock (s : State) : State :=
  { s with
    crc := State.reset.crc, frame := State.reset.frame, stat := State.reset.stat, res := State.reset.res,
    bsr := State.reset.bsr }

end Sys2Proof.Machine
end

