-- ==== Sys2Proof/Machine/Operands.lean ====
section
/-! DEFINITION. The operand forms: bytes of the frame input (20_memory.md R42), the 20-bit fields of the frame (42_frame.md
R120, R121), and how a result stands in RES (10_state.md R24). -/
namespace Sys2Proof.Machine

/-- `zext_32` of a frame byte (00_scope.md R11). -/
def zext32 (b : Byte) : BitVec 32 := b.setWidth 32

/-- An 8-bit result zero-extended into RES (R24). -/
def resOfByte (b : Byte) : ResWord := b.setWidth 64

/-- A Boolean result in RES: 0 or 1 (R24). -/
def resOfBool (c : Bool) : ResWord := if c then 1 else 0

/-- Byte `i` of the frame input, `frame_in[55-8i : 48-8i]` (R42). -/
def frameInByte (f : FrameIn) (i : Nat) : Byte := f.extractLsb' (48 - 8 * i) 8

/-- The seven bytes of the frame input in wire order (R42). -/
def frameInBytes (f : FrameIn) : List Byte :=
  [frameInByte f 0, frameInByte f 1, frameInByte f 2, frameInByte f 3, frameInByte f 4, frameInByte f 5, frameInByte f 6]

/-- `hum_bits(F)` (R120). -/
def humBits (m : Memory) : BitVec 32 :=
  (zext32 (m.read 1) <<< 12) ||| (zext32 (m.read 2) <<< 4) ||| (zext32 (m.read 3) >>> 4)

/-- `temp_bits(F)` (R121). -/
def tempBits (m : Memory) : BitVec 32 :=
  ((zext32 (m.read 3) &&& 0x0F) <<< 16) ||| (zext32 (m.read 4) <<< 8) ||| zext32 (m.read 5)

/-- A 20-bit field zero-extended into RES (R24, R126, R127). -/
def resOfField (v : BitVec 32) : ResWord := v.setWidth 64

end Sys2Proof.Machine
end

