-- ==== Sys2Proof/Machine/Ieee.lean ====
section
/-! DEFINITION. The arithmetic of the physical-unit converter (43_convert.md R140 to R143): exact values, rounding to
nearest even, and the binary32 and binary64 bit patterns. Exact values here are dyadic rationals: every value of
R142 and R143 is one, since the only division is by 2^20. -/
namespace Sys2Proof.Machine

/-- An exact value `num / 2^scale` (00_scope.md R12: a float value is exact until it is rounded). -/
structure Exact where
  num : Int
  scale : Nat
deriving DecidableEq, Repr

/-- An integer as an exact value. -/
def exactOfNat (n : Nat) : Exact := ⟨n, 0⟩

/-- Division by `2^k`. -/
def Exact.divPow2 (v : Exact) (k : Nat) : Exact := ⟨v.num, v.scale + k⟩

/-- Multiplication by a constant. -/
def Exact.mulNat (v : Exact) (c : Nat) : Exact := ⟨v.num * c, v.scale⟩

/-- Subtraction of a constant. -/
def Exact.subNat (v : Exact) (c : Nat) : Exact := ⟨v.num - c * 2 ^ v.scale, v.scale⟩

/-- Fraction bits of a format (R140). -/
def fracBits : FpFmt → Nat
  | .binary32 => 23
  | .binary64 => 52

/-- Exponent bias of a format (R140). -/
def expBias : FpFmt → Nat
  | .binary32 => 127
  | .binary64 => 1023

/-- Significant bits of a format: the fraction bits and the leading one. -/
def precision (f : FpFmt) : Nat := fracBits f + 1

/-- The multiple of `2^k` nearest to `n`, a tie going to the even multiple. -/
def roundAt (k n : Nat) : Nat :=
  (if 2 ^ k < 2 * (n % 2 ^ k) ∨ (2 * (n % 2 ^ k) = 2 ^ k ∧ n / 2 ^ k % 2 = 1) then n / 2 ^ k + 1 else n / 2 ^ k) * 2 ^ k

/-- `n` rounded to `p` significant bits, ties to even: the last of the `p` bits has weight `2^(log2 n + 1 - p)`. -/
def roundSig (p n : Nat) : Nat := roundAt (n.log2 + 1 - p) n

/-- `RNE32(q)` and `RNE64(q)` (R141). A power of two scales the value and its spacing alike, so the numerator is rounded.
Overflow and subnormals do not occur (R141, R146) and are not treated (log entry 10). -/
def rne (f : FpFmt) (v : Exact) : Exact := ⟨v.num.sign * roundSig (precision f) v.num.natAbs, v.scale⟩

/-- The biased exponent of a non-zero value of a format. -/
def biasedExp (f : FpFmt) (v : Exact) : Nat := v.num.natAbs.log2 + expBias f - v.scale

/-- The fraction field of a value of a format: its significand's bits below the leading one. -/
def fraction (f : FpFmt) (v : Exact) : Nat :=
  v.num.natAbs * 2 ^ fracBits f / 2 ^ v.num.natAbs.log2 - 2 ^ fracBits f

/-- `bits32(v)` (R140): sign bit 31, exponent 30:23, fraction 22:0. An exact zero is +0 (R145). -/
def bits32 (v : Exact) : BitVec 32 :=
  if v.num = 0 then 0
  else BitVec.ofBool (decide (v.num < 0)) ++ BitVec.ofNat 8 (biasedExp .binary32 v) ++ BitVec.ofNat 23 (fraction .binary32 v)

/-- `bits64(v)` (R140): sign bit 63, exponent 62:52, fraction 51:0. An exact zero is +0 (R145). -/
def bits64 (v : Exact) : BitVec 64 :=
  if v.num = 0 then 0
  else BitVec.ofBool (decide (v.num < 0)) ++ BitVec.ofNat 11 (biasedExp .binary64 v) ++ BitVec.ofNat 52 (fraction .binary64 v)

/-- A float result as RES holds it (10_state.md R24): `zext_64(bits32(v))` or `bits64(v)`. -/
def resOfFloat (f : FpFmt) (v : Exact) : ResWord :=
  match f with
  | .binary32 => (bits32 v).setWidth 64
  | .binary64 => bits64 v

/-- The humidity function of R142, each operation rounded in the order `(h / 2^20) * 100`. -/
def humidityPercent (f : FpFmt) (h : Nat) : Exact :=
  let x := rne f (exactOfNat h)
  let y := rne f (x.divPow2 20)
  rne f (y.mulNat 100)

/-- The temperature function of R143, each operation rounded in the order `(t / 2^20) * 200 - 50`. -/
def temperatureCelsius (f : FpFmt) (t : Nat) : Exact :=
  let y := rne f ((exactOfNat t).divPow2 20)
  let a := rne f (y.mulNat 200)
  rne f (a.subNat 50)

end Sys2Proof.Machine
end

