-- ==== Sys2Proof/Machine/Convert.lean ====
section
/-! DEFINITION. The commands of the physical-unit converter (43_convert.md). They look at neither the busy bit nor the
checksum (42_frame.md R128). -/
namespace Sys2Proof.Machine

/-- HUM_PCT (R144): the humidity function at `hum_bits(FRAME)`, in the format `FP_FMT`. -/
def execHumPct (s : State) : Host.Outcome State Fault Refusal :=
  .next (s.setRes (resOfFloat s.fpFmt (humidityPercent s.fpFmt (humBits s.frame).toNat)))

/-- TEMP_C (R145): the temperature function at `temp_bits(FRAME)`, in the format `FP_FMT`. -/
def execTempC (s : State) : Host.Outcome State Fault Refusal :=
  .next (s.setRes (resOfFloat s.fpFmt (temperatureCelsius s.fpFmt (tempBits s.frame).toNat)))

end Sys2Proof.Machine
end

