-- ==== Sys2Proof/Machine/Crc.lean ====
section
/-! DEFINITION. The commands of the CRC-8 generator (40_crc.md). -/
namespace Sys2Proof.Machine

/-- CRC_INIT (R84): `CRC <- 0xFF`. -/
def execCrcInit (s : State) : Host.Outcome State Fault Refusal := .next (s.setCrc crcInitValue)

/-- CRC_STEP (R85): `c = TABLE[CRC ^ DATA]; CRC <- c; RES <- zext_64(c)`. -/
def execCrcStep (data : Byte) (s : State) : Host.Outcome State Fault Refusal :=
  .next ((s.setCrc (crcNext s.crc data)).setRes (resOfByte (crcNext s.crc data)))

/-- CRC_READ (R86): `RES <- zext_64(CRC)`. -/
def execCrcRead (s : State) : Host.Outcome State Fault Refusal := .next (s.setRes (resOfByte s.crc))

/-- CRC_FRAME (R87): `RES <- zext_64(crc8(FRAME[0..5]))`; the CRC register is not touched. -/
def execCrcFrame (s : State) : Host.Outcome State Fault Refusal :=
  .next (s.setRes (resOfByte (crc8 (frameBytes6 s.frame))))

/-- CRC_CHECK (R88): `RES <- bool(crc8(FRAME[0..5]) == FRAME[6])`; a mismatch is a result, not an error. -/
def execCrcCheck (s : State) : Host.Outcome State Fault Refusal :=
  .next (s.setRes (resOfBool (crc8 (frameBytes6 s.frame) == s.frame.read 6)))

end Sys2Proof.Machine
end

