-- ==== Sys2Proof/Machine/Frame.lean ====
section
/-! DEFINITION. The commands of the frame buffer and the bit-unpacker (42_frame.md). -/
namespace Sys2Proof.Machine

/-- FRAME_CLEAR (R122): every byte 0x00, in one step. -/
def execFrameClear (s : State) : Host.Outcome State Fault Refusal := .next (s.setFrame Memory.zeros)

/-- FRAME_WRITE (R123): BAD_INDEX when IDX = 7, else `FRAME[IDX] <- DATA`. -/
def execFrameWrite (idx : Idx) (data : Byte) (s : State) : Host.Outcome State Fault Refusal :=
  if idx = 7 then .next (s.raise .badIndex 0x09) else .next (s.setFrame (s.frame.write idx.toNat data))

/-- FRAME_LOAD (R124): all seven bytes from the frame input, in one step. -/
def execFrameLoad (s : State) : Host.Outcome State Fault Refusal :=
  .next (s.setFrame (Memory.ofBytesFrom 0 (frameInBytes s.frameIn)))

/-- FRAME_READ (R125): BAD_INDEX when IDX = 7, else `RES <- zext_64(FRAME[IDX])`. -/
def execFrameRead (idx : Idx) (s : State) : Host.Outcome State Fault Refusal :=
  if idx = 7 then .next (s.raise .badIndex 0x0B) else .next (s.setRes (resOfByte (s.frame.read idx.toNat)))

/-- HUM_BITS (R126): `RES <- zext_64(hum_bits(FRAME))`. -/
def execHumBits (s : State) : Host.Outcome State Fault Refusal := .next (s.setRes (resOfField (humBits s.frame)))

/-- TEMP_BITS (R127): `RES <- zext_64(temp_bits(FRAME))`. -/
def execTempBits (s : State) : Host.Outcome State Fault Refusal := .next (s.setRes (resOfField (tempBits s.frame)))

end Sys2Proof.Machine
end

