-- ==== Sys2Proof/Machine/Status.lean ====
section
/-! DEFINITION. The commands of the status-byte decoder (41_status.md). -/
namespace Sys2Proof.Machine

/-- STAT_LOAD (R103): `STAT <- DATA`. -/
def execStatLoad (data : Byte) (s : State) : Host.Outcome State Fault Refusal := .next (s.setStat data)

/-- STAT_FROM_FRAME (R104): `STAT <- FRAME[0]`. -/
def execStatFromFrame (s : State) : Host.Outcome State Fault Refusal := .next (s.setStat (s.frame.read 0))

/-- STAT_READ (R105): `RES <- zext_64(STAT)`. -/
def execStatRead (s : State) : Host.Outcome State Fault Refusal := .next (s.setRes (resOfByte s.stat))

/-- IS_BUSY (R106). -/
def execIsBusy (s : State) : Host.Outcome State Fault Refusal := .next (s.setRes (resOfBool (isBusyTest s.stat)))

/-- IS_CAL (R107). -/
def execIsCal (s : State) : Host.Outcome State Fault Refusal := .next (s.setRes (resOfBool (isCalTest s.stat)))

/-- IS_NORMAL (R108). -/
def execIsNormal (s : State) : Host.Outcome State Fault Refusal := .next (s.setRes (resOfBool (isNormalTest s.stat)))

/-- IS_CYCLIC (R109). -/
def execIsCyclic (s : State) : Host.Outcome State Fault Refusal := .next (s.setRes (resOfBool (isCyclicTest s.stat)))

/-- IS_COMMAND (R110). -/
def execIsCommand (s : State) : Host.Outcome State Fault Refusal :=
  .next (s.setRes (resOfBool (isCommandTest s.stat)))

end Sys2Proof.Machine
end

