-- ==== Sys2Proof/Machine/System.lean ====
section
/-! DEFINITION. The system commands (44_system.md). -/
namespace Sys2Proof.Machine

/-- NOP (R160): no state changes. -/
def execNop (s : State) : Host.Outcome State Fault Refusal := .next s

/-- BSR_READ (R161): `RES <- zext_64(BSR)`; the read does not clear BSR. -/
def execBsrRead (s : State) : Host.Outcome State Fault Refusal := .next (s.setRes (resOfByte s.bsr))

/-- CFG_READ (R162): `RES <- zext_64(CFG)`. -/
def execCfgRead (s : State) : Host.Outcome State Fault Refusal := .next (s.setRes (resOfByte s.cfg))

end Sys2Proof.Machine
end

