-- ==== Sys2Proof/Machine/Dispatch.lean ====
section
/-! DEFINITION. One arm per command: each calls its meaning (30_encoding.md R63, R69). -/
namespace Sys2Proof.Machine

def exec (i : Instr) (s : State) : Host.Outcome State Fault Refusal :=
  match i with
  | .nop => Sys2Proof.Machine.execNop s
  | .crcInit => Sys2Proof.Machine.execCrcInit s
  | .crcStep data => Sys2Proof.Machine.execCrcStep data s
  | .crcRead => Sys2Proof.Machine.execCrcRead s
  | .crcFrame => Sys2Proof.Machine.execCrcFrame s
  | .crcCheck => Sys2Proof.Machine.execCrcCheck s
  | .bsrRead => Sys2Proof.Machine.execBsrRead s
  | .cfgRead => Sys2Proof.Machine.execCfgRead s
  | .frameClear => Sys2Proof.Machine.execFrameClear s
  | .frameWrite idx data => Sys2Proof.Machine.execFrameWrite idx data s
  | .frameLoad => Sys2Proof.Machine.execFrameLoad s
  | .frameRead idx => Sys2Proof.Machine.execFrameRead idx s
  | .humBits => Sys2Proof.Machine.execHumBits s
  | .tempBits => Sys2Proof.Machine.execTempBits s
  | .humPct => Sys2Proof.Machine.execHumPct s
  | .tempC => Sys2Proof.Machine.execTempC s
  | .statLoad data => Sys2Proof.Machine.execStatLoad data s
  | .statFromFrame => Sys2Proof.Machine.execStatFromFrame s
  | .statRead => Sys2Proof.Machine.execStatRead s
  | .isBusy => Sys2Proof.Machine.execIsBusy s
  | .isCal => Sys2Proof.Machine.execIsCal s
  | .isNormal => Sys2Proof.Machine.execIsNormal s
  | .isCyclic => Sys2Proof.Machine.execIsCyclic s
  | .isCommand => Sys2Proof.Machine.execIsCommand s

end Sys2Proof.Machine
end

