-- ==== Sys2Proof/Machine/Step.lean ====
section
/-! DEFINITION. One step of the block (30_encoding.md R69) on what the host presents next. -/
namespace Sys2Proof.Machine

/-- A step takes the host's oldest pending interaction. A command that decodes runs its rule (R69); one with a reserved
OP raises ILLEGAL_OP and has no other effect (R65); the reset event resets (70_reset_and_hazards.md R190). With nothing
pending the block holds its state (60_exceptions.md R181, log entry 2). -/
def step (s : State) : Host.Outcome State Fault Refusal :=
  match s.pending with
  | [] => .next s
  | .reset :: rest => .next ((s.accept s.frameIn rest).resetBlock)
  | .command w f :: rest =>
    match decode w with
    | .ok i => exec i (s.accept f rest)
    | .error (.reservedOp op) => .next ((s.accept f rest).raise .illegalOp op)

/-- The host presents the word `w` of `nbits` bits next, the frame input held as it is: `step` of this state runs exactly
that command on `s` (log entry 2). -/
def State.withFetchWord (s : State) (nbits w : Nat) : State :=
  { s with pending := .command (BitVec.ofNat 16 (w % 2 ^ nbits)) s.frameIn :: s.pending }

end Sys2Proof.Machine
end

