-- ==== Sys2Proof/Safety.lean ====
section
/-! DEFINITION. The terms claims are made in: the outputs of a run (00_scope.md R13), the invariant, the access matrix of
10_state.md R31, the shift form of the CRC table (40_crc.md R81, R83), and what an IEEE 754 word stands for
(43_convert.md R140, R141), each written apart from the definitions the machine runs on. -/
namespace Sys2Proof.Machine

/-- The values on the outputs `res` and `err` (00_scope.md R5). -/
def State.outputs (s : State) : ResWord × BitVec 1 := (s.res, s.bsr.extractLsb' 0 1)

/-- The observation of `k` steps (R13), less the final state: the outputs after each. -/
def observe : Nat → State → List (ResWord × BitVec 1)
  | 0, _ => []
  | k + 1, s =>
    match step s with
    | .next t => t.outputs :: observe k t
    | .fault _ => []
    | .refused _ => []

/-- What the host does to issue commands, an assembler's word for each, with one value held on the frame input. -/
def commandsOf (is : List Instr) (f : FrameIn) : List HostEvent := is.map fun i => .command (encode i) f

/-- BSR holds what an error can have left there (10_state.md R25, 60_exceptions.md R170): nothing, or ERR with ILLEGAL_OP and
a reserved OP, or ERR with BAD_INDEX and the OP of FRAME_WRITE or FRAME_READ. ECAUSE 11 is none of these. -/
def bsrLegal (b : Byte) : Bool :=
  b == 0x00 ||
  (b.extractLsb' 0 3 == 0b011 && decide (0x18 ≤ (b.extractLsb' 3 5).toNat)) ||
  (b.extractLsb' 0 3 == 0b101 && (b.extractLsb' 3 5 == 0x09 || b.extractLsb' 3 5 == 0x0B))

/-- The invariant of every run: the frame buffer has its canonical form, BSR is legal. -/
def State.inv (s : State) : Bool := s.frame.wf && bsrLegal s.bsr

/-- A command word that raises an error, and the error's code (R170). -/
def raisesCode (w : CmdWord) : Option (BitVec 2) :=
  if 0x18 ≤ (w.extractLsb' 11 5).toNat then some 0b01
  else if (w.extractLsb' 11 5 = 0x09 ∨ w.extractLsb' 11 5 = 0x0B) ∧ w.extractLsb' 8 3 = 7 then some 0b10
  else none

/-- The host's side of the interface is as it was. -/
def HostSideKept (s t : State) : Prop := t.frameIn = s.frameIn ∧ t.pending = s.pending

/-- Every byte of the frame reads as it did. -/
def FrameKept (s t : State) : Prop := ∀ a, t.frame.read a = s.frame.read a

/-- Nothing but RES has changed. -/
def OnlyResChanged (s t : State) : Prop :=
  t.crc = s.crc ∧ FrameKept s t ∧ t.stat = s.stat ∧ t.bsr = s.bsr ∧ t.fpFmt = s.fpFmt ∧ HostSideKept s t

/-- Nothing but STAT has changed. -/
def OnlyStatChanged (s t : State) : Prop :=
  t.crc = s.crc ∧ FrameKept s t ∧ t.res = s.res ∧ t.bsr = s.bsr ∧ t.fpFmt = s.fpFmt ∧ HostSideKept s t

/-- Nothing but FRAME has changed. -/
def OnlyFrameChanged (s t : State) : Prop :=
  t.crc = s.crc ∧ t.stat = s.stat ∧ t.res = s.res ∧ t.bsr = s.bsr ∧ t.fpFmt = s.fpFmt ∧ HostSideKept s t

/-- Every word whose OP field is `op` is the command that `mk` makes of its IDX and DATA fields (30_encoding.md R61, R63). -/
def OpDecodesTo (op : Op) (mk : Idx → Byte → Instr) : Prop :=
  ∀ w : CmdWord, w.extractLsb' 11 5 = op → decode w = .ok (mk (w.extractLsb' 8 3) (w.extractLsb' 0 8))

/-- The columns of the access matrix (10_state.md R31). -/
structure Access where
  crc : Bool := false
  frame : List Nat := []
  stat : Bool := false
  res : Bool := false
  bsr : Bool := false
  cfg : Bool := false
  frameIn : Bool := false
deriving DecidableEq, Repr

/-- What a command reads (R31, the r entries). -/
def instrReads : Instr → Access
  | .nop | .crcInit | .frameClear | .frameWrite _ _ | .statLoad _ => {}
  | .crcStep _ | .crcRead => { crc := true }
  | .crcFrame => { frame := [0, 1, 2, 3, 4, 5] }
  | .crcCheck => { frame := [0, 1, 2, 3, 4, 5, 6] }
  | .bsrRead => { bsr := true }
  | .cfgRead => { cfg := true }
  | .frameLoad => { frameIn := true }
  | .frameRead idx => { frame := [idx.toNat] }
  | .humBits => { frame := [1, 2, 3] }
  | .tempBits => { frame := [3, 4, 5] }
  | .humPct => { frame := [1, 2, 3], cfg := true }
  | .tempC => { frame := [3, 4, 5], cfg := true }
  | .statFromFrame => { frame := [0] }
  | .statRead | .isBusy | .isCal | .isNormal | .isCyclic | .isCommand => { stat := true }

/-- What a command writes when it raises no error (R31, the w entries). -/
def instrWrites : Instr → Access
  | .nop => {}
  | .crcInit => { crc := true }
  | .crcStep _ => { crc := true, res := true }
  | .frameClear | .frameLoad => { frame := [0, 1, 2, 3, 4, 5, 6] }
  | .frameWrite idx _ => { frame := [idx.toNat] }
  | .statLoad _ | .statFromFrame => { stat := true }
  | .crcRead | .crcFrame | .crcCheck | .bsrRead | .cfgRead | .frameRead _ | .humBits | .tempBits | .humPct | .tempC
  | .statRead | .isBusy | .isCal | .isNormal | .isCyclic | .isCommand => { res := true }

/-- Two states agree on what an access names. -/
def AgreeOn (acc : Access) (s s' : State) : Prop :=
  (acc.crc = true → s.crc = s'.crc) ∧ (∀ a ∈ acc.frame, s.frame.read a = s'.frame.read a) ∧
  (acc.stat = true → s.stat = s'.stat) ∧ (acc.res = true → s.res = s'.res) ∧ (acc.bsr = true → s.bsr = s'.bsr) ∧
  (acc.cfg = true → s.fpFmt = s'.fpFmt) ∧ (acc.frameIn = true → s.frameIn = s'.frameIn)

/-- What an access does not name is as it was (frame indices 0 to 6; CFG and the host's side always). -/
def KeptOutside (acc : Access) (s t : State) : Prop :=
  (acc.crc = false → t.crc = s.crc) ∧ (∀ a < 7, a ∉ acc.frame → t.frame.read a = s.frame.read a) ∧
  (acc.stat = false → t.stat = s.stat) ∧ (acc.res = false → t.res = s.res) ∧ (acc.bsr = false → t.bsr = s.bsr) ∧
  t.fpFmt = s.fpFmt ∧ HostSideKept s t

/-- The bits of a word that a command uses: OP always, IDX and DATA as R63's pattern shows. -/
def usedBits : Instr → CmdWord
  | .crcStep _ | .statLoad _ => 0xF8FF
  | .frameWrite _ _ => 0xFFFF
  | .frameRead _ => 0xFF00
  | .nop | .crcInit | .crcRead | .crcFrame | .crcCheck | .bsrRead | .cfgRead | .frameClear | .frameLoad | .humBits
  | .tempBits | .humPct | .tempC | .statFromFrame | .statRead | .isBusy | .isCal | .isNormal | .isCyclic
  | .isCommand => 0xF800

/-- One most-significant-bit-first shift step of the division by the polynomial 0x31 (40_crc.md R81). -/
def crcShift (c : Byte) : Byte := if c.getLsbD 7 then (c <<< 1) ^^^ 0x31 else c <<< 1

/-- Eight shift steps (R81, R83). -/
def crcShift8 (c : Byte) : Byte :=
  crcShift (crcShift (crcShift (crcShift (crcShift (crcShift (crcShift (crcShift c)))))))

/-- The sign bit of a result word (43_convert.md R140). -/
def floatSign (f : FpFmt) (w : ResWord) : Bool :=
  match f with
  | .binary32 => w.getLsbD 31
  | .binary64 => w.getLsbD 63

/-- The exponent field (R140). -/
def floatExp (f : FpFmt) (w : ResWord) : Nat :=
  match f with
  | .binary32 => (w.extractLsb' 23 8).toNat
  | .binary64 => (w.extractLsb' 52 11).toNat

/-- The fraction field (R140). -/
def floatFrac (f : FpFmt) (w : ResWord) : Nat :=
  match f with
  | .binary32 => (w.extractLsb' 0 23).toNat
  | .binary64 => (w.extractLsb' 0 52).toNat

/-- Neither an infinity nor a NaN: the exponent field is not all ones. -/
def FloatFinite (f : FpFmt) (w : ResWord) : Prop :=
  match f with
  | .binary32 => floatExp f w < 255
  | .binary64 => floatExp f w < 2047

/-- The magnitude a word stands for, from its exponent and fraction fields: bias 127 or 1023 (R140); an exponent field of 0
is a zero or a subnormal. -/
def floatMagnitude (f : FpFmt) (e m : Nat) : ℚ :=
  match f with
  | .binary32 => if e = 0 then (m : ℚ) * 2 ^ (-149 : ℤ) else (2 ^ 23 + m : ℚ) * 2 ^ ((e : ℤ) - 150)
  | .binary64 => if e = 0 then (m : ℚ) * 2 ^ (-1074 : ℤ) else (2 ^ 52 + m : ℚ) * 2 ^ ((e : ℤ) - 1075)

/-- The value a finite word stands for. -/
def floatValue (f : FpFmt) (w : ResWord) : ℚ :=
  (if floatSign f w then -1 else 1) * floatMagnitude f (floatExp f w) (floatFrac f w)

/-- `w` is `q` rounded to the format by roundTiesToEven (R141): no finite word is nearer, and where another value is as
near, `w` has an even fraction. -/
def IsRounded (f : FpFmt) (q : ℚ) (w : ResWord) : Prop :=
  FloatFinite f w ∧ ∀ v, FloatFinite f v →
    |floatValue f w - q| ≤ |floatValue f v - q| ∧
    (|floatValue f v - q| = |floatValue f w - q| → floatValue f v = floatValue f w ∨ floatFrac f w % 2 = 0)

/-- A binary32 result stands in RES zero-extended (10_state.md R24). -/
def FitsFormat (f : FpFmt) (w : ResWord) : Prop :=
  match f with
  | .binary32 => w.extractLsb' 32 32 = 0
  | .binary64 => True

end Sys2Proof.Machine
end

