-- ==== Sys2Proof/Certificates/Slice0/Obligations.lean ====
section
/-! DEFINITION. The statements for the provers, each from a rule of spec/. -/

open Sys2Proof Sys2Proof.Machine

/-! Encoding (30_encoding.md) -/

/-- R63, R64: the word an assembler writes for a command, with any operand the fields admit, is that command. -/
def Obligations.DecodeOfEncodeIsIdentity : Prop :=
  ∀ i : Instr, decode (encode i) = .ok i

/-- R64: bits a command does not use give the same command with the same effect; an assembler writes them as zero. -/
def Obligations.IgnoredBitsChangeNothing : Prop :=
  ∀ (w : CmdWord) (i : Instr), decode w = .ok i →
    encode i = w &&& usedBits i ∧
    ∀ w' : CmdWord, w' &&& usedBits i = w &&& usedBits i →
      decode w' = .ok i ∧
      ∀ (s : State) (f : FrameIn) (rest : List HostEvent),
        step { s with pending := .command w' f :: rest } = step { s with pending := .command w f :: rest }

/-- R65: the words with OP 0x18 to 0x1F are turned away under their OP; every other word is a command, and a command with
an illegal index is FRAME_WRITE or FRAME_READ with IDX = 7. -/
def Obligations.EveryWordIsACommandOrReserved : Prop :=
  ∀ w : CmdWord,
    (0x18 ≤ (w.extractLsb' 11 5).toNat → decode w = .error (.reservedOp (w.extractLsb' 11 5))) ∧
    ((w.extractLsb' 11 5).toNat < 0x18 → ∃ i, decode w = .ok i ∧
      (i.wellFormed = false ↔
        (w.extractLsb' 11 5 = 0x09 ∨ w.extractLsb' 11 5 = 0x0B) ∧ w.extractLsb' 8 3 = 7))

/-- Words of 95_test_vectors.md V1, and TEMP_C's word of R63, at the ends of the operand ranges and of the opcode map. -/
def Obligations.WrittenOutWordsDecode : Prop :=
  decode 0x0000 = .ok .nop ∧ decode 0x0FFF = .ok .crcInit ∧ decode 0x1718 = .ok (.crcStep 0x18) ∧
  decode 0x4B65 = .ok (.frameWrite 3 0x65) ∧ decode 0x4F00 = .ok (.frameWrite 7 0x00) ∧
  decode 0x5B00 = .ok (.frameRead 3) ∧ decode 0x801C = .ok (.statLoad 0x1C) ∧ decode 0x7800 = .ok .tempC ∧
  decode 0xB800 = .ok .isCommand ∧ decode 0xC000 = .error (.reservedOp 0x18) ∧
  decode 0xFFFF = .error (.reservedOp 0x1F)

/-- R67: a command's own line assembles to it; operands in range, `data` in decimal or in hex, give the command with those
values; an operand out of range, and an `idx` in hex, is an error and nothing is truncated. The errors' names are the
model's, and that of a bad `idx` comes before that of a bad `data`. -/
def Obligations.AssemblerTakesRangesExactly : Prop :=
  (∀ i : Instr, (disassemble i).wellFormed = true ∧ assemble (disassemble i) = .ok i) ∧
  (∀ l : AsmLine, l.wellFormed = true ↔ ∃ i, assemble l = .ok i) ∧
  (∀ n ≤ 255, ∀ a ∈ [AsmNum.dec n, AsmNum.hex n],
    assemble ⟨"CRC_STEP", [a]⟩ = .ok (.crcStep (BitVec.ofNat 8 n)) ∧
    assemble ⟨"STAT_LOAD", [a]⟩ = .ok (.statLoad (BitVec.ofNat 8 n)) ∧
    ∀ k ≤ 7, assemble ⟨"FRAME_WRITE", [.dec k, a]⟩ = .ok (.frameWrite (BitVec.ofNat 3 k) (BitVec.ofNat 8 n))) ∧
  (∀ k ≤ 7, assemble ⟨"FRAME_READ", [.dec k]⟩ = .ok (.frameRead (BitVec.ofNat 3 k))) ∧
  (∀ n > 255, ∀ a ∈ [AsmNum.dec n, AsmNum.hex n],
    assemble ⟨"CRC_STEP", [a]⟩ = .error .dataOutOfRange ∧ assemble ⟨"STAT_LOAD", [a]⟩ = .error .dataOutOfRange ∧
    ∀ k ≤ 7, assemble ⟨"FRAME_WRITE", [.dec k, a]⟩ = .error .dataOutOfRange) ∧
  (∀ n, ∀ a ∈ [AsmNum.dec (n + 8), AsmNum.hex n],
    assemble ⟨"FRAME_READ", [a]⟩ = .error .idxOutOfRange ∧
    ∀ b, assemble ⟨"FRAME_WRITE", [a, b]⟩ = .error .idxOutOfRange)

/-! The step (30_encoding.md R69), reset (70_reset_and_hazards.md R190), the interface (00_scope.md R5) -/

/-- R69: a command word that decodes runs the rule of its OP with its fields and the frame input; that the word comes from
`State.pending` is the model's form of the interface (log entries 1 and 2). -/
def Obligations.StepRunsTheDecodedCommand : Prop :=
  ∀ (s : State) (w : CmdWord) (f : FrameIn) (rest : List HostEvent) (i : Instr),
    s.pending = .command w f :: rest → decode w = .ok i →
    step s = exec i { s with frameIn := f, pending := rest }

/-- The model's choice (log entry 2), after 60_exceptions.md R181 "Between commands it holds its state unchanged": a step
with nothing pending changes nothing. -/
def Obligations.StepWithNothingPendingHoldsTheState : Prop :=
  ∀ s : State, s.pending = [] → step s = .next s

/-- R190: the reset event gives every register its reset value in one step and leaves CFG; that it can come in
the middle of a run and leaves what is still pending is the model's reading (log entry 8). -/
def Obligations.ResetEventRestoresEveryRegister : Prop :=
  ∀ (s : State) (rest : List HostEvent), s.pending = .reset :: rest →
    ∃ t, step s = .next t ∧ t.crc = 0xFF ∧ (∀ a, t.frame.read a = 0x00) ∧ t.stat = 0x00 ∧ t.res = 0 ∧ t.bsr = 0x00 ∧
      t.fpFmt = s.fpFmt ∧ t.cfg = s.cfg ∧ t.outputs = (0, 0) ∧ t.frameIn = s.frameIn ∧ t.pending = rest

/-- R190: the values after reset; BUSY, MODE and CALEN, ERR, ECAUSE and EOP among them. -/
def Obligations.ResetStateHoldsTheSpecsValues : Prop :=
  State.reset.crc = 0xFF ∧ (∀ a, State.reset.frame.read a = 0x00) ∧ State.reset.stat = 0x00 ∧
  statBusy State.reset.stat = 0 ∧ statMode State.reset.stat = 0 ∧ statCalen State.reset.stat = 0 ∧
  State.reset.res = 0 ∧ State.reset.bsr = 0x00 ∧ bsrErr State.reset.bsr = 0 ∧ bsrEcause State.reset.bsr = 0 ∧
  bsrEop State.reset.bsr = 0 ∧ State.reset.cfg = cfgOf Config.fpFmt ∧ State.reset.outputs = (0, 0)

/-- 60_exceptions.md R172, R174 (log entry 4): whatever the host presents, the block answers a next state. -/
def Obligations.EveryStepAnswersANextState : Prop :=
  ∀ s : State, ∃ t, step s = .next t

/-! Errors (60_exceptions.md) -/

/-- R172: every command with a legal index completes without error in every state. -/
def Obligations.LegalCommandsCompleteWithoutError : Prop :=
  ∀ (i : Instr) (s : State), i.wellFormed = true → ∃ t, exec i s = .next t ∧ t.bsr = s.bsr

/-- R170: the two errors and nothing else set ERR, each under its condition. -/
def Obligations.ErrIsSetExactlyByTheTwoErrors : Prop :=
  ∀ (s : State) (w : CmdWord) (f : FrameIn) (rest : List HostEvent), s.pending = .command w f :: rest →
    ∃ t, step s = .next t ∧
      (bsrErr t.bsr = 1 ↔ bsrErr s.bsr = 1 ∨ 0x18 ≤ (w.extractLsb' 11 5).toNat ∨
        ((w.extractLsb' 11 5 = 0x09 ∨ w.extractLsb' 11 5 = 0x0B) ∧ w.extractLsb' 8 3 = 7))

/-- R171: first-error capture; nothing else changes, the outputs show ERR = 1 and the RES of before, and the next command
is what was behind the failing one. -/
def Obligations.AnErrorWritesBsrAndNothingElse : Prop :=
  ∀ (s : State) (w : CmdWord) (f : FrameIn) (rest : List HostEvent) (code : BitVec 2),
    s.pending = .command w f :: rest → raisesCode w = some code →
    ∃ t, step s = .next t ∧
      bsrErr t.bsr = 1 ∧
      (bsrErr s.bsr = 0 → bsrEcause t.bsr = code ∧ bsrEop t.bsr = w.extractLsb' 11 5) ∧
      (bsrErr s.bsr = 1 → t.bsr = s.bsr) ∧
      t.crc = s.crc ∧ (∀ a, t.frame.read a = s.frame.read a) ∧ t.stat = s.stat ∧ t.res = s.res ∧
      t.fpFmt = s.fpFmt ∧ t.outputs = (s.res, 1) ∧ t.frameIn = f ∧ t.pending = rest

/-- R175: only reset clears BSR; an error after an error changes nothing in it. -/
def Obligations.OnlyResetClearsBsr : Prop :=
  ∀ (s t : State), step s = .next t → bsrErr s.bsr = 1 →
    t.bsr = s.bsr ∨ ∃ rest, s.pending = .reset :: rest ∧ t.bsr = 0x00

/-- 10_state.md R25: only an error or reset writes BSR; a command changes it only when ERR was 0 and it raised. -/
def Obligations.BsrChangesOnlyByFirstErrorOrReset : Prop :=
  ∀ (s t : State), step s = .next t → t.bsr ≠ s.bsr →
    (∃ rest, s.pending = .reset :: rest) ∨
    (bsrErr s.bsr = 0 ∧ ∃ w f rest, s.pending = .command w f :: rest ∧ (raisesCode w).isSome)

/-! Whole-machine rules -/

/-- The frame buffer is canonical (log entry 5) and BSR is legal after reset. -/
def Obligations.InvHoldsAtReset : Prop :=
  State.reset.inv = true

/-- Every step keeps the frame buffer canonical within indices 0 to 6 (log entry 5) and BSR legal: ECAUSE 11 is never
written, and ERR = 0 means ECAUSE = 00 and EOP = 0 (10_state.md R25). -/
def Obligations.InvKeptByEveryStep : Prop :=
  ∀ s t : State, s.inv = true → step s = .next t → t.inv = true

/-- 10_state.md R26: CFG is hardwired, before and after reset; bits 7:1 read 0. -/
def Obligations.CfgIsHardwired : Prop :=
  (∀ s t : State, step s = .next t → t.cfg = s.cfg) ∧
  (∀ s : State, s.cfg.extractLsb' 1 7 = 0 ∧ (s.cfg.getLsbD 0 = true ↔ s.fpFmt = .binary64))

/-- 10_state.md R31, the w entries: a command changes only what the access matrix lists for it, and on an error
only BSR. -/
def Obligations.CommandsWriteOnlyWhatTheMatrixLists : Prop :=
  ∀ (i : Instr) (s t : State), exec i s = .next t →
    (i.wellFormed = true → KeptOutside (instrWrites i) s t) ∧
    (i.wellFormed = false → KeptOutside { bsr := true } s t)

/-- 10_state.md R31, the r entries: what a command writes depends only on what the matrix says it reads. -/
def Obligations.ResultsDependOnlyOnWhatTheMatrixLists : Prop :=
  ∀ (i : Instr) (s s' t t' : State), i.wellFormed = true → AgreeOn (instrReads i) s s' →
    exec i s = .next t → exec i s' = .next t' → AgreeOn (instrWrites i) t t'

/-- 70_reset_and_hazards.md R195: the frame input is sampled only by FRAME_LOAD, and there all 56 bits are. -/
def Obligations.FrameInputIsSampledOnlyByFrameLoad : Prop :=
  (∀ (s : State) (w : CmdWord) (f f' : FrameIn) (rest : List HostEvent), decode w ≠ .ok .frameLoad →
    ∃ t : State, step { s with pending := .command w f :: rest } = .next { t with frameIn := f } ∧
      step { s with pending := .command w f' :: rest } = .next { t with frameIn := f' }) ∧
  (∀ (s s' t t' : State), exec .frameLoad s = .next t → exec .frameLoad s' = .next t' →
    (∀ a < 7, t.frame.read a = t'.frame.read a) → s.frameIn = s'.frameIn)

/-- 20_memory.md R45 (reads and FRAME_WRITE are idempotent), 40_crc.md R84: repeating any command but CRC_STEP leaves the
state its first run left. -/
def Obligations.RepeatingACommandChangesNothing : Prop :=
  ∀ (i : Instr) (s t : State), (∀ d, i ≠ .crcStep d) → exec i s = .next t → exec i t = .next t

/-- 60_exceptions.md R181: the host can observe all state with CRC_READ, FRAME_READ, STAT_READ, BSR_READ and CFG_READ: two
states in which `res` and the results of these agree are the same (their frames being canonical). -/
def Obligations.ReadCommandsObserveAllState : Prop :=
  ∀ s s' : State, s.frame.wf = true → s'.frame.wf = true → s.res = s'.res →
    (∀ i ∈ [Instr.crcRead, .statRead, .bsrRead, .cfgRead, .frameRead 0, .frameRead 1, .frameRead 2, .frameRead 3,
        .frameRead 4, .frameRead 5, .frameRead 6],
      ∀ t t', exec i s = .next t → exec i s' = .next t' → t.res = t'.res) →
    s' = { s with frameIn := s'.frameIn, pending := s'.pending }

/-! System commands (44_system.md) -/

/-- R160: every word with OP 0x00 is NOP, and NOP changes nothing. -/
def Obligations.NopChangesNothing : Prop :=
  encode .nop = 0x0000 ∧ OpDecodesTo 0x00 (fun _ _ => .nop) ∧ ∀ s : State, exec .nop s = .next s

/-- R161: BSR_READ copies BSR, zero-extended, to RES; BSR is not cleared, nothing else changes. -/
def Obligations.BsrReadCopiesBsr : Prop :=
  encode .bsrRead = 0x3000 ∧ OpDecodesTo 0x06 (fun _ _ => .bsrRead) ∧
  ∀ s : State, ∃ t, exec .bsrRead s = .next t ∧ t.res = (0#56) ++ s.bsr ∧ OnlyResChanged s t

/-- R162: CFG_READ gives 0x00 in BINARY32 and 0x01 in BINARY64; nothing else changes. -/
def Obligations.CfgReadReportsTheFormat : Prop :=
  encode .cfgRead = 0x3800 ∧ OpDecodesTo 0x07 (fun _ _ => .cfgRead) ∧
  ∀ s : State, ∃ t, exec .cfgRead s = .next t ∧ t.res = (0#56) ++ s.cfg ∧
    (s.fpFmt = .binary32 → t.res = 0x00) ∧ (s.fpFmt = .binary64 → t.res = 0x01) ∧ OnlyResChanged s t

/-! CRC-8 generator (40_crc.md) -/

/-- R84: CRC_INIT sets CRC to 0xFF and changes nothing else. -/
def Obligations.CrcInitRestartsTheAccumulator : Prop :=
  encode .crcInit = 0x0800 ∧ OpDecodesTo 0x01 (fun _ _ => .crcInit) ∧
  ∀ s : State, ∃ t, exec .crcInit s = .next t ∧ t.crc = 0xFF ∧ FrameKept s t ∧ t.stat = s.stat ∧ t.res = s.res ∧
    t.bsr = s.bsr ∧ t.fpFmt = s.fpFmt ∧ HostSideKept s t

/-- R85: CRC_STEP puts `TABLE[CRC ^ DATA]` into CRC and, zero-extended, into RES; nothing else changes. -/
def Obligations.CrcStepFoldsOneByte : Prop :=
  (∀ d : Byte, encode (.crcStep d) = 0x1000 ||| d.setWidth 16) ∧ OpDecodesTo 0x02 (fun _ d => .crcStep d) ∧
  ∀ (d : Byte) (s : State), ∃ t, exec (.crcStep d) s = .next t ∧ t.crc = tableAt (s.crc ^^^ d) ∧
    t.res = (0#56) ++ tableAt (s.crc ^^^ d) ∧ FrameKept s t ∧ t.stat = s.stat ∧ t.bsr = s.bsr ∧
    t.fpFmt = s.fpFmt ∧ HostSideKept s t

/-- R86: CRC_READ copies CRC, zero-extended, to RES; nothing else changes. -/
def Obligations.CrcReadCopiesCrc : Prop :=
  encode .crcRead = 0x1800 ∧ OpDecodesTo 0x03 (fun _ _ => .crcRead) ∧
  ∀ s : State, ∃ t, exec .crcRead s = .next t ∧ t.res = (0#56) ++ s.crc ∧ OnlyResChanged s t

/-- R87: CRC_FRAME folds FRAME[0] to FRAME[5] from 0xFF through TABLE into RES; FRAME[6] and CRC have no part in it. -/
def Obligations.CrcFrameFoldsTheFirstSixBytes : Prop :=
  encode .crcFrame = 0x2000 ∧ OpDecodesTo 0x04 (fun _ _ => .crcFrame) ∧
  ∀ s : State, ∃ t, exec .crcFrame s = .next t ∧
    t.res = (0#56) ++ [0, 1, 2, 3, 4, 5].foldl (fun c i => tableAt (c ^^^ s.frame.read i)) 0xFF ∧ OnlyResChanged s t

/-- R88: CRC_CHECK gives 1 on exact equality of the six bytes' CRC with FRAME[6], else 0; no error, CRC unchanged. -/
def Obligations.CrcCheckComparesWithByteSix : Prop :=
  encode .crcCheck = 0x2800 ∧ OpDecodesTo 0x05 (fun _ _ => .crcCheck) ∧
  ∀ s : State, ∃ t, exec .crcCheck s = .next t ∧
    ([0, 1, 2, 3, 4, 5].foldl (fun c i => tableAt (c ^^^ s.frame.read i)) 0xFF = s.frame.read 6 → t.res = 1) ∧
    ([0, 1, 2, 3, 4, 5].foldl (fun c i => tableAt (c ^^^ s.frame.read i)) 0xFF ≠ s.frame.read 6 → t.res = 0) ∧
    OnlyResChanged s t

/-- R81, R83: the ROM's listed contents are the shift construction, so CRC_STEP is eight bitwise steps on CRC ^ DATA. -/
def Obligations.CrcStepIsEightShiftSteps : Prop :=
  (∀ k : Byte, tableAt k = crcShift8 k) ∧
  ∀ (d : Byte) (s : State), ∃ t, exec (.crcStep d) s = .next t ∧ t.crc = crcShift8 (s.crc ^^^ d)

/-- R81: the 256 entries are all different, so TABLE is a bijection on bytes. -/
def Obligations.TableIsABijection : Prop :=
  crcTable.length = 256 ∧ Function.Bijective tableAt

/-- R89 item 4: the CRC of a XOR is the XOR of the CRC and the error pattern's CRC from 0. -/
def Obligations.CrcOfXorIsXorOfCrcs : Prop :=
  ∀ a e : List Byte, a.length = e.length →
    crc8 (List.zipWith (· ^^^ ·) a e) = crc8 a ^^^ crcFrom 0x00 e

/-- R89 item 2, 30_encoding.md R68: CRC_BYTES leaves CRC = crc8 of its bytes, RES that value unless there is no byte, and
nothing else changed; from any state, the host's later commands still pending. -/
def Obligations.CrcBytesStreamsTheCrc : Prop :=
  ∀ (bs : List Byte) (s : State) (f : FrameIn) (rest : List HostEvent),
    s.pending = commandsOf (Pseudo.crcBytes bs).expand f ++ rest →
    ∃ t : State, core.run (bs.length + 1) s = .next t ∧ t.crc = bs.foldl (fun c b => tableAt (c ^^^ b)) 0xFF ∧
      t.res = (if bs = [] then s.res else (0#56) ++ t.crc) ∧ FrameKept s t ∧ t.stat = s.stat ∧ t.bsr = s.bsr ∧
      t.fpFmt = s.fpFmt ∧ t.pending = rest

/-- R89 item 3: over all seven bytes of a frame that CRC_CHECK accepts, the CRC is 0x00. -/
def Obligations.ValidFrameHasZeroResidue : Prop :=
  ∀ s t : State, exec .crcCheck s = .next t → t.res = 1 →
    crc8 [s.frame.read 0, s.frame.read 1, s.frame.read 2, s.frame.read 3, s.frame.read 4, s.frame.read 5,
      s.frame.read 6] = 0x00

/-- R89 item 5: writing a different value to any one byte of a frame that CRC_CHECK accepts makes it refuse it. -/
def Obligations.SingleByteCorruptionIsDetected : Prop :=
  ∀ (s : State) (idx : Idx) (v : Byte), idx ≠ 7 → v ≠ s.frame.read idx.toNat →
    (∃ t, exec .crcCheck s = .next t ∧ t.res = 1) →
    ∃ t u, exec (.frameWrite idx v) s = .next t ∧ exec .crcCheck t = .next u ∧ u.res = 0

/-! Status-byte decoder (41_status.md) -/

/-- R103: STAT_LOAD puts DATA into STAT and changes nothing else. -/
def Obligations.StatLoadTakesData : Prop :=
  (∀ d : Byte, encode (.statLoad d) = 0x8000 ||| d.setWidth 16) ∧ OpDecodesTo 0x10 (fun _ d => .statLoad d) ∧
  ∀ (d : Byte) (s : State), ∃ t, exec (.statLoad d) s = .next t ∧ t.stat = d ∧ OnlyStatChanged s t

/-- R104: STAT_FROM_FRAME puts FRAME[0] into STAT and changes nothing else. -/
def Obligations.StatFromFrameTakesByteZero : Prop :=
  encode .statFromFrame = 0x8800 ∧ OpDecodesTo 0x11 (fun _ _ => .statFromFrame) ∧
  ∀ s : State, ∃ t, exec .statFromFrame s = .next t ∧ t.stat = s.frame.read 0 ∧ OnlyStatChanged s t

/-- R105: STAT_READ copies STAT, zero-extended and with its undecoded bits, to RES; nothing else changes. -/
def Obligations.StatReadCopiesStat : Prop :=
  encode .statRead = 0x9000 ∧ OpDecodesTo 0x12 (fun _ _ => .statRead) ∧
  ∀ s : State, ∃ t, exec .statRead s = .next t ∧ t.res = (0#56) ++ s.stat ∧ OnlyResChanged s t

/-- R106, R107: IS_BUSY gives STAT[7] and IS_CAL gives STAT[3], zero-extended; nothing else changes. -/
def Obligations.BusyAndCalibrationReadTheirBits : Prop :=
  encode .isBusy = 0x9800 ∧ OpDecodesTo 0x13 (fun _ _ => .isBusy) ∧
  encode .isCal = 0xA000 ∧ OpDecodesTo 0x14 (fun _ _ => .isCal) ∧
  (∀ s : State, ∃ t, exec .isBusy s = .next t ∧ t.res = (0#63) ++ s.stat.extractLsb' 7 1 ∧ OnlyResChanged s t) ∧
  (∀ s : State, ∃ t, exec .isCal s = .next t ∧ t.res = (0#63) ++ s.stat.extractLsb' 3 1 ∧ OnlyResChanged s t)

/-- R108 to R110: the three mode commands test STAT[6:5] against 00, 01 and 1x; nothing else changes. -/
def Obligations.ModeCommandsTestTheModeField : Prop :=
  encode .isNormal = 0xA800 ∧ OpDecodesTo 0x15 (fun _ _ => .isNormal) ∧
  encode .isCyclic = 0xB000 ∧ OpDecodesTo 0x16 (fun _ _ => .isCyclic) ∧
  encode .isCommand = 0xB800 ∧ OpDecodesTo 0x17 (fun _ _ => .isCommand) ∧
  (∀ s : State, ∃ t, exec .isNormal s = .next t ∧ t.res = (if s.stat.extractLsb' 5 2 = 0b00 then 1 else 0) ∧
    OnlyResChanged s t) ∧
  (∀ s : State, ∃ t, exec .isCyclic s = .next t ∧ t.res = (if s.stat.extractLsb' 5 2 = 0b01 then 1 else 0) ∧
    OnlyResChanged s t) ∧
  (∀ s : State, ∃ t, exec .isCommand s = .next t ∧ t.res = (0#63) ++ s.stat.extractLsb' 6 1 ∧ OnlyResChanged s t)

/-- R111: of IS_NORMAL, IS_CYCLIC and IS_COMMAND exactly one gives 1 and the others 0, the one `modeOf` names (R101). -/
def Obligations.ExactlyOneModeCommandGivesOne : Prop :=
  ∀ s tn tc tm : State, exec .isNormal s = .next tn → exec .isCyclic s = .next tc → exec .isCommand s = .next tm →
    (tn.res, tc.res, tm.res) =
      match modeOf (statMode s.stat) with
      | .normal => (1, 0, 0)
      | .cyclic => (0, 1, 0)
      | .command => (0, 0, 1)

/-! Frame buffer and bit-unpacker (42_frame.md) -/

/-- R122: FRAME_CLEAR makes every byte 0x00 and changes nothing else. -/
def Obligations.FrameClearZeroesEveryByte : Prop :=
  encode .frameClear = 0x4000 ∧ OpDecodesTo 0x08 (fun _ _ => .frameClear) ∧
  ∀ s : State, ∃ t, exec .frameClear s = .next t ∧ (∀ a, t.frame.read a = 0x00) ∧ OnlyFrameChanged s t

/-- R123: FRAME_WRITE stores DATA at IDX, every other byte and everything else unchanged; with IDX = 7 it raises
BAD_INDEX(0x09) and FRAME is unchanged. -/
def Obligations.FrameWriteStoresOneByte : Prop :=
  (∀ (i : Idx) (d : Byte), encode (.frameWrite i d) = 0x4800 ||| (i.setWidth 16 <<< 8) ||| d.setWidth 16) ∧
  OpDecodesTo 0x09 (fun i d => .frameWrite i d) ∧
  (∀ (i : Idx) (d : Byte) (s : State), i ≠ 7 → ∃ t, exec (.frameWrite i d) s = .next t ∧
    t.frame.read i.toNat = d ∧ (∀ a, a ≠ i.toNat → t.frame.read a = s.frame.read a) ∧ OnlyFrameChanged s t) ∧
  (∀ (d : Byte) (s : State), ∃ t, exec (.frameWrite 7 d) s = .next t ∧
    (bsrErr s.bsr = 0 → t.bsr = (0x09#5) ++ (0b10#2) ++ (1#1)) ∧ (bsrErr s.bsr = 1 → t.bsr = s.bsr) ∧
    t.crc = s.crc ∧ FrameKept s t ∧ t.stat = s.stat ∧ t.res = s.res ∧ t.fpFmt = s.fpFmt ∧ HostSideKept s t)

/-- R124: FRAME_LOAD puts `frame_in[55-8i : 48-8i]` into FRAME[i] for i = 0 to 6 and changes nothing else. -/
def Obligations.FrameLoadTakesTheFrameInput : Prop :=
  encode .frameLoad = 0x5000 ∧ OpDecodesTo 0x0A (fun _ _ => .frameLoad) ∧
  ∀ s : State, ∃ t, exec .frameLoad s = .next t ∧
    (∀ i < 7, t.frame.read i = s.frameIn.extractLsb' (48 - 8 * i) 8) ∧ OnlyFrameChanged s t

/-- R125: FRAME_READ copies FRAME[IDX], zero-extended, to RES and changes nothing else; with IDX = 7 it raises
BAD_INDEX(0x0B) and RES is unchanged. -/
def Obligations.FrameReadCopiesOneByte : Prop :=
  (∀ i : Idx, encode (.frameRead i) = 0x5800 ||| (i.setWidth 16 <<< 8)) ∧
  OpDecodesTo 0x0B (fun i _ => .frameRead i) ∧
  (∀ (i : Idx) (s : State), i ≠ 7 → ∃ t, exec (.frameRead i) s = .next t ∧
    t.res = (0#56) ++ s.frame.read i.toNat ∧ OnlyResChanged s t) ∧
  (∀ s : State, ∃ t, exec (.frameRead 7) s = .next t ∧
    (bsrErr s.bsr = 0 → t.bsr = (0x0B#5) ++ (0b10#2) ++ (1#1)) ∧ (bsrErr s.bsr = 1 → t.bsr = s.bsr) ∧
    t.crc = s.crc ∧ FrameKept s t ∧ t.stat = s.stat ∧ t.res = s.res ∧ t.fpFmt = s.fpFmt ∧ HostSideKept s t)

/-- R126 with R120: HUM_BITS gives F[1], F[2] and the high nibble of F[3] as field bits 19:12, 11:4 and 3:0, zero above;
nothing else changes. -/
def Obligations.HumBitsAssemblesTheField : Prop :=
  encode .humBits = 0x6000 ∧ OpDecodesTo 0x0C (fun _ _ => .humBits) ∧
  ∀ s : State, ∃ t, exec .humBits s = .next t ∧
    t.res = (0#44) ++ s.frame.read 1 ++ s.frame.read 2 ++ (s.frame.read 3).extractLsb' 4 4 ∧ OnlyResChanged s t

/-- R127 with R121: TEMP_BITS gives the low nibble of F[3], F[4] and F[5] as field bits 19:16, 15:8 and 7:0, zero above;
nothing else changes. -/
def Obligations.TempBitsAssemblesTheField : Prop :=
  encode .tempBits = 0x6800 ∧ OpDecodesTo 0x0D (fun _ _ => .tempBits) ∧
  ∀ s : State, ∃ t, exec .tempBits s = .next t ∧
    t.res = (0#44) ++ (s.frame.read 3).extractLsb' 0 4 ++ s.frame.read 4 ++ s.frame.read 5 ∧ OnlyResChanged s t

/-- R129: the two fields together are the 40 bits FRAME[1][7] to FRAME[5][0] in order, so each bit lies in one field. -/
def Obligations.TheTwoFieldsAreTheFortyBits : Prop :=
  ∀ s th tt : State, exec .humBits s = .next th → exec .tempBits s = .next tt →
    th.res.extractLsb' 0 20 ++ tt.res.extractLsb' 0 20 =
      s.frame.read 1 ++ s.frame.read 2 ++ s.frame.read 3 ++ s.frame.read 4 ++ s.frame.read 5

/-- 30_encoding.md R68: FRAME_SET makes FRAME the seven bytes and changes nothing else; BUSY_OF_FRAME gives FRAME[0][7]. -/
def Obligations.FrameSetAndBusyOfFrame : Prop :=
  (∀ (b0 b1 b2 b3 b4 b5 b6 : Byte) (s : State) (f : FrameIn) (rest : List HostEvent),
    s.pending = commandsOf (Pseudo.frameSet b0 b1 b2 b3 b4 b5 b6).expand f ++ rest →
    ∃ t : State, core.run 7 s = .next t ∧
      (∀ a < 7, t.frame.read a = [b0, b1, b2, b3, b4, b5, b6].getD a 0) ∧ t.crc = s.crc ∧ t.stat = s.stat ∧
      t.res = s.res ∧ t.bsr = s.bsr ∧ t.fpFmt = s.fpFmt ∧ t.pending = rest) ∧
  (∀ (s : State) (f : FrameIn) (rest : List HostEvent), s.pending = commandsOf Pseudo.busyOfFrame.expand f ++ rest →
    ∃ t : State, core.run 2 s = .next t ∧ t.res = (0#63) ++ (s.frame.read 0).extractLsb' 7 1 ∧
      t.stat = s.frame.read 0 ∧ t.crc = s.crc ∧ FrameKept s t ∧ t.bsr = s.bsr ∧ t.fpFmt = s.fpFmt ∧ t.pending = rest)

/-- 70_reset_and_hazards.md R193, steps 1 to 3, from any state: after FRAME_LOAD, STAT_FROM_FRAME, IS_BUSY the output is the
frame's busy bit, and after CRC_CHECK it is 1 exactly when the six bytes' CRC is the seventh byte. -/
def Obligations.TrustedReadingOrderChecksTheFrame : Prop :=
  ∀ (s : State) (f : FrameIn) (rest : List HostEvent),
    s.pending = commandsOf [.frameLoad, .statFromFrame, .isBusy, .crcCheck] f ++ rest →
    ∃ t u : State, core.run 3 s = .next t ∧ t.res = (0#63) ++ f.extractLsb' 55 1 ∧ core.run 4 s = .next u ∧
      (u.res = 1 ↔ crc8 [f.extractLsb' 48 8, f.extractLsb' 40 8, f.extractLsb' 32 8, f.extractLsb' 24 8,
        f.extractLsb' 16 8, f.extractLsb' 8 8] = f.extractLsb' 0 8) ∧
      u.crc = s.crc ∧ u.bsr = s.bsr ∧ u.pending = rest

/-! Physical-unit converter (43_convert.md) -/

/-- R144 with R142: HUM_PCT divides the humidity field by 2^20 and multiplies by 100, rounding to `FP_FMT` after each
operation, and gives the result's bits; no negative zero; nothing else changes, whatever the frame. -/
def Obligations.HumPctRoundsEachOperation : Prop :=
  encode .humPct = 0x7000 ∧ OpDecodesTo 0x0E (fun _ _ => .humPct) ∧
  ∀ s : State, ∃ t, exec .humPct s = .next t ∧ FitsFormat s.fpFmt t.res ∧ floatSign s.fpFmt t.res = false ∧
    (∃ x y : ResWord, IsRounded s.fpFmt ((humBits s.frame).toNat : ℚ) x ∧
      IsRounded s.fpFmt (floatValue s.fpFmt x / 2 ^ 20) y ∧
      IsRounded s.fpFmt (floatValue s.fpFmt y * 100) t.res) ∧
    OnlyResChanged s t

/-- R142: the humidity has one rounding: it is the exact percentage h * 100 / 2^20 rounded once. -/
def Obligations.HumPctIsThePercentageRoundedOnce : Prop :=
  ∀ s : State, ∃ t, exec .humPct s = .next t ∧
    IsRounded s.fpFmt ((humBits s.frame).toNat * 100 / 2 ^ 20) t.res ∧
    (s.fpFmt = .binary64 → floatValue .binary64 t.res = (humBits s.frame).toNat * 100 / 2 ^ 20)

/-- R145 with R143: TEMP_C divides the temperature field by 2^20, multiplies by 200 and subtracts 50, rounding to `FP_FMT`
after each operation, and gives the result's bits; a zero is +0; nothing else changes, whatever the frame. -/
def Obligations.TempCRoundsEachOperation : Prop :=
  encode .tempC = 0x7800 ∧ OpDecodesTo 0x0F (fun _ _ => .tempC) ∧
  ∀ s : State, ∃ t, exec .tempC s = .next t ∧ FitsFormat s.fpFmt t.res ∧
    (floatValue s.fpFmt t.res = 0 → floatSign s.fpFmt t.res = false) ∧
    (∃ y a : ResWord, IsRounded s.fpFmt ((tempBits s.frame).toNat / 2 ^ 20) y ∧
      IsRounded s.fpFmt (floatValue s.fpFmt y * 200) a ∧
      IsRounded s.fpFmt (floatValue s.fpFmt a - 50) t.res) ∧
    OnlyResChanged s t

/-- R143: in BINARY64 no operation rounds: TEMP_C is t * 200 / 2^20 - 50 exactly. In BINARY32 it is not always that value
rounded once: t = 0xA3D71 gives 0x429C0008, which is not. -/
def Obligations.TempCIsExactOnlyInBinary64 : Prop :=
  (∀ s : State, s.fpFmt = .binary64 → ∃ t, exec .tempC s = .next t ∧
    floatValue .binary64 t.res = (tempBits s.frame).toNat * 200 / 2 ^ 20 - 50) ∧
  (∀ s : State, s.fpFmt = .binary32 → (tempBits s.frame).toNat = 0xA3D71 → ∃ t, exec .tempC s = .next t ∧
    t.res = 0x429C0008 ∧ ¬ IsRounded .binary32 ((tempBits s.frame).toNat * 200 / 2 ^ 20 - 50) t.res)

/-- R146: for every frame and both formats, HUM_PCT lies in [0, 100) and TEMP_C in [-50, 150), and neither is a NaN, an
infinity, a subnormal or negative zero. -/
def Obligations.ConverterResultsAreOrdinaryAndInRange : Prop :=
  ∀ s th tt : State, exec .humPct s = .next th → exec .tempC s = .next tt →
    (0 ≤ floatValue s.fpFmt th.res ∧ floatValue s.fpFmt th.res < 100) ∧
    (-50 ≤ floatValue s.fpFmt tt.res ∧ floatValue s.fpFmt tt.res < 150) ∧
    ∀ w ∈ [th.res, tt.res], FloatFinite s.fpFmt w ∧
      (floatExp s.fpFmt w = 0 → floatFrac s.fpFmt w = 0 ∧ floatSign s.fpFmt w = false)

/-- R146: HUM_PCT does not fall when the humidity field rises, nor TEMP_C when the temperature field does, in both formats. -/
def Obligations.ConverterIsMonotone : Prop :=
  ∀ s s' t t' : State, s.fpFmt = s'.fpFmt →
    ((humBits s.frame).toNat ≤ (humBits s'.frame).toNat → exec .humPct s = .next t → exec .humPct s' = .next t' →
      floatValue s.fpFmt t.res ≤ floatValue s.fpFmt t'.res) ∧
    ((tempBits s.frame).toNat ≤ (tempBits s'.frame).toNat → exec .tempC s = .next t → exec .tempC s' = .next t' →
      floatValue s.fpFmt t.res ≤ floatValue s.fpFmt t'.res)

/-! The observation of a run (00_scope.md R5, R13) -/

/-- R13 with R5: observing k steps gives k pairs, the i-th of them `res` = RES and `err` = BSR.ERR after step i, from every
state; that every step has a next state, and that a step may find nothing pending, is the model's (log entries 2 and 4). -/
def Obligations.ObservationIsResAndErrAfterEachStep : Prop :=
  ∀ (k : Nat) (s : State), (observe k s).length = k ∧
    ∀ i < k, ∃ t : State, core.run (i + 1) s = .next t ∧ (observe k s)[i]? = some (t.res, bsrErr t.bsr)
end

