-- ==== Sys2Proof/Laws/Crc.lean ====
section
/-! SUPPORT. The CRC table as shift steps, and the laws of the CRC loop over appended bytes. -/
namespace Sys2Proof.Machine

@[simp] theorem crcFrom_nil (c : Byte) : crcFrom c [] = c := rfl

@[simp] theorem crcFrom_cons (c b : Byte) (bs : List Byte) : crcFrom c (b :: bs) = crcFrom (crcNext c b) bs := rfl

theorem crcFrom_append (c : Byte) (as bs : List Byte) : crcFrom c (as ++ bs) = crcFrom (crcFrom c as) bs := by
  induction as generalizing c with
  | nil => rfl
  | cons a as ih => exact ih _

/-- The loop is the left fold of the table step. -/
theorem crcFrom_eq_foldl (c : Byte) (bs : List Byte) : crcFrom c bs = bs.foldl (fun c b => tableAt (c ^^^ b)) c := by
  induction bs generalizing c with
  | nil => rfl
  | cons b bs ih => exact ih _

/-- The ROM's 256 listed entries are the shift construction of 40_crc.md R81. -/
theorem tableAt_eq_crcShift8 : ∀ k : Byte, tableAt k = crcShift8 k := by decide

/-- A shift step is linear. -/
theorem crcShift_xor (a b : Byte) : crcShift (a ^^^ b) = crcShift a ^^^ crcShift b := by
  have h (c : Byte) : crcShift c = (c <<< 1) ^^^ (if c.getLsbD 7 then 0x31 else 0) := by
    unfold crcShift
    split <;> simp
  have left_comm (x y z : Byte) : x ^^^ (y ^^^ z) = y ^^^ (x ^^^ z) := by
    rw [← BitVec.xor_assoc, BitVec.xor_comm x y, BitVec.xor_assoc]
  rw [h, h, h, BitVec.getLsbD_xor, BitVec.shiftLeft_xor_distrib]
  cases a.getLsbD 7 <;> cases b.getLsbD 7 <;> simp [BitVec.xor_assoc, BitVec.xor_comm, left_comm]

/-- A table look-up is linear (40_crc.md R89 item 4, for one entry). -/
theorem tableAt_xor (a b : Byte) : tableAt (a ^^^ b) = tableAt a ^^^ tableAt b := by
  simp only [tableAt_eq_crcShift8, crcShift8, crcShift_xor]

end Sys2Proof.Machine
end

