-- ==== Sys2Proof/Laws/Decode.lean ====
section
/-! SUPPORT. A command word and its three fields. -/
namespace Sys2Proof

/-- A word as a number, from its fields. -/
theorem cmdWord_toNat (op : Op) (idx : Idx) (data : Byte) :
    (cmdWord op idx data).toNat = op.toNat * 2048 + idx.toNat * 256 + data.toNat := by
  rw [cmdWord, BitVec.toNat_append, BitVec.toNat_append, ← Nat.shiftLeft_add_eq_or_of_lt data.isLt,
    ← Nat.shiftLeft_add_eq_or_of_lt idx.isLt, Nat.shiftLeft_eq, Nat.shiftLeft_eq]
  omega

theorem opField_toNat (w : CmdWord) : (opField w).toNat = w.toNat / 2048 % 32 := by
  simp [opField, Nat.shiftRight_eq_div_pow]

theorem idxField_toNat (w : CmdWord) : (idxField w).toNat = w.toNat / 256 % 8 := by
  simp [idxField, Nat.shiftRight_eq_div_pow]

theorem dataField_toNat (w : CmdWord) : (dataField w).toNat = w.toNat % 256 := by
  simp [dataField]

@[simp] theorem opField_cmdWord (op : Op) (idx : Idx) (data : Byte) : opField (cmdWord op idx data) = op := by
  apply BitVec.eq_of_toNat_eq
  rw [opField_toNat, cmdWord_toNat]
  omega

@[simp] theorem idxField_cmdWord (op : Op) (idx : Idx) (data : Byte) : idxField (cmdWord op idx data) = idx := by
  apply BitVec.eq_of_toNat_eq
  rw [idxField_toNat, cmdWord_toNat]
  omega

@[simp] theorem dataField_cmdWord (op : Op) (idx : Idx) (data : Byte) : dataField (cmdWord op idx data) = data := by
  apply BitVec.eq_of_toNat_eq
  rw [dataField_toNat, cmdWord_toNat]
  omega

/-- A word is its three fields put together. -/
theorem cmdWord_fields (w : CmdWord) : cmdWord (opField w) (idxField w) (dataField w) = w := by
  apply BitVec.eq_of_toNat_eq
  rw [cmdWord_toNat, opField_toNat, idxField_toNat, dataField_toNat]
  omega

/-- Words are masked field by field. -/
theorem cmdWord_and (op op' : Op) (idx idx' : Idx) (data data' : Byte) :
    cmdWord op idx data &&& cmdWord op' idx' data' = cmdWord (op &&& op') (idx &&& idx') (data &&& data') := by
  rw [cmdWord, cmdWord, BitVec.and_append, BitVec.and_append]
  rfl

/-- A reserved OP is one of eight (30_encoding.md R65). -/
theorem reserved_op : ∀ op : Op, 0x18 ≤ op.toNat → op = 0x18 ∨ op = 0x19 ∨ op = 0x1A ∨ op = 0x1B ∨ op = 0x1C ∨
    op = 0x1D ∨ op = 0x1E ∨ op = 0x1F := by decide

/-- A word with a reserved OP is turned away under its OP. -/
theorem decode_reserved {w : CmdWord} (h : 0x18 ≤ (opField w).toNat) : decode w = .error (.reservedOp (opField w)) := by
  unfold decode
  rcases reserved_op _ h with e | e | e | e | e | e | e | e <;> rw [e] <;> rfl

end Sys2Proof
end

