-- ==== Sys2Proof/Laws/Memory.lean ====
section
/-! SUPPORT. The frame buffer: read after write, the canonical form, and that equal reads mean equal frames. -/
namespace Sys2Proof.Machine

@[simp] theorem Memory.read_nil (a : Nat) : Memory.read [] a = unlistedByte := rfl

theorem Memory.read_cons (b : Nat) (v : Byte) (m : Memory) (a : Nat) :
    Memory.read ((b, v) :: m) a = if b = a then v else Memory.read m a := rfl

theorem Memory.read_erase (m : Memory) (a c : Nat) :
    (m.erase a).read c = if a = c then unlistedByte else m.read c := by
  induction m with
  | nil => simp [Memory.erase]
  | cons p m ih =>
    obtain ⟨b, v⟩ := p
    by_cases hb : b = a
    · subst hb
      rw [Memory.erase, if_pos rfl, ih, Memory.read_cons]
      by_cases hc : b = c <;> simp [hc]
    · by_cases hc : b = c
      · subst hc
        simp [Memory.erase, Memory.read_cons, hb, Ne.symm hb]
      · simp [Memory.erase, Memory.read_cons, hb, hc, ih]

theorem Memory.read_insert (m : Memory) (a : Nat) (v : Byte) (c : Nat) (h : ∀ w, (a, w) ∉ m) :
    (m.insert a v).read c = if a = c then v else m.read c := by
  induction m with
  | nil => simp [Memory.insert, Memory.read_cons]
  | cons p m ih =>
    obtain ⟨b, w⟩ := p
    have hb : b ≠ a := fun e => h w (by simp [e])
    have ih := ih fun w hw => h w (List.mem_cons_of_mem _ hw)
    by_cases hlt : a < b
    · simp [Memory.insert, hlt, Memory.read_cons]
    · by_cases hc : b = c
      · subst hc
        simp [Memory.insert, hlt, Memory.read_cons, Ne.symm hb]
      · simp [Memory.insert, hlt, Memory.read_cons, hc, ih]

theorem Memory.not_mem_erase (m : Memory) (a : Nat) (w : Byte) : (a, w) ∉ m.erase a := by
  induction m with
  | nil => simp [Memory.erase]
  | cons p m ih =>
    obtain ⟨b, v⟩ := p
    by_cases hb : b = a
    · simpa [Memory.erase, hb] using ih
    · simp [Memory.erase, hb, ih, Ne.symm hb]

/-- A write gives the written byte at its index and leaves every other index alone, in any memory. -/
theorem Memory.read_write (m : Memory) (a : Nat) (v : Byte) (c : Nat) :
    (m.write a v).read c = if a = c then v else m.read c := by
  unfold Memory.write
  split
  next hv => subst hv; exact Memory.read_erase m a c
  next =>
    rw [Memory.read_insert _ _ _ _ (Memory.not_mem_erase m a), Memory.read_erase]
    split <;> rfl

@[simp] theorem Memory.read_write_same (m : Memory) (a : Nat) (v : Byte) : (m.write a v).read a = v := by
  simp [Memory.read_write]

@[simp] theorem Memory.read_write_other (m : Memory) (a : Nat) (v : Byte) (c : Nat) (h : c ≠ a) :
    (m.write a v).read c = m.read c := by
  simp [Memory.read_write, Ne.symm h]

theorem Memory.erase_of_not_mem (m : Memory) (a : Nat) (h : ∀ w, (a, w) ∉ m) : m.erase a = m := by
  induction m with
  | nil => rfl
  | cons p m ih =>
    obtain ⟨b, v⟩ := p
    have hb : b ≠ a := fun e => h v (by simp [e])
    simp [Memory.erase, hb, ih fun w hw => h w (List.mem_cons_of_mem _ hw)]

theorem Memory.erase_insert (m : Memory) (a : Nat) (v : Byte) (h : ∀ w, (a, w) ∉ m) : (m.insert a v).erase a = m := by
  induction m with
  | nil => simp [Memory.insert, Memory.erase]
  | cons p m ih =>
    obtain ⟨b, w⟩ := p
    have hb : b ≠ a := fun e => h w (by simp [e])
    have hm : ∀ w, (a, w) ∉ m := fun w hw => h w (List.mem_cons_of_mem _ hw)
    by_cases hlt : a < b
    · simp [Memory.insert, hlt, Memory.erase, hb, Memory.erase_of_not_mem m a hm]
    · simp [Memory.insert, hlt, Memory.erase, hb, ih hm]

/-- Writing the same byte twice is writing it once, as lists, in any memory. -/
theorem Memory.write_write (m : Memory) (a : Nat) (v : Byte) : (m.write a v).write a v = m.write a v := by
  unfold Memory.write
  split
  · exact Memory.erase_of_not_mem _ _ (Memory.not_mem_erase m a)
  · rw [Memory.erase_insert _ _ _ (Memory.not_mem_erase m a)]

/-! The canonical form -/

theorem Memory.wfFrom_cons (lo b : Nat) (v : Byte) (m : Memory) :
    Memory.wfFrom lo ((b, v) :: m) = true ↔ lo ≤ b ∧ b < 7 ∧ v ≠ unlistedByte ∧ Memory.wfFrom (b + 1) m = true := by
  simp [Memory.wfFrom, and_assoc]

theorem Memory.wfFrom_mono {lo lo' : Nat} {m : Memory} (h : lo' ≤ lo) (hm : Memory.wfFrom lo m = true) :
    Memory.wfFrom lo' m = true := by
  cases m with
  | nil => rfl
  | cons p m =>
    rw [Memory.wfFrom_cons] at hm ⊢
    exact ⟨h.trans hm.1, hm.2⟩

theorem Memory.wfFrom_erase {lo : Nat} {m : Memory} (a : Nat) (h : Memory.wfFrom lo m = true) :
    Memory.wfFrom lo (m.erase a) = true := by
  induction m generalizing lo with
  | nil => rfl
  | cons p m ih =>
    obtain ⟨b, v⟩ := p
    rw [Memory.wfFrom_cons] at h
    by_cases hb : b = a
    · simpa [Memory.erase, hb] using Memory.wfFrom_mono (by omega) (ih h.2.2.2)
    · rw [Memory.erase, if_neg hb, Memory.wfFrom_cons]
      exact ⟨h.1, h.2.1, h.2.2.1, ih h.2.2.2⟩

theorem Memory.wfFrom_insert {lo : Nat} {m : Memory} {a : Nat} {v : Byte} (h : Memory.wfFrom lo m = true)
    (hn : ∀ w, (a, w) ∉ m) (hlo : lo ≤ a) (ha : a < 7) (hv : v ≠ unlistedByte) :
    Memory.wfFrom lo (m.insert a v) = true := by
  induction m generalizing lo with
  | nil => simp [Memory.insert, Memory.wfFrom, hlo, ha, hv]
  | cons p m ih =>
    obtain ⟨b, w⟩ := p
    have hb : b ≠ a := fun e => hn w (by simp [e])
    rw [Memory.wfFrom_cons] at h
    by_cases hlt : a < b
    · rw [Memory.insert, if_pos hlt, Memory.wfFrom_cons, Memory.wfFrom_cons]
      exact ⟨hlo, ha, hv, hlt, h.2⟩
    · rw [Memory.insert, if_neg hlt, Memory.wfFrom_cons]
      exact ⟨h.1, h.2.1, h.2.2.1, ih h.2.2.2 (fun w hw => hn w (List.mem_cons_of_mem _ hw)) (by omega)⟩

/-- A write at a frame index keeps the canonical form. -/
theorem Memory.wf_write {m : Memory} {a : Nat} (v : Byte) (h : m.wf = true) (ha : a < 7) : (m.write a v).wf = true := by
  unfold Memory.write
  split
  · exact Memory.wfFrom_erase a h
  · exact Memory.wfFrom_insert (Memory.wfFrom_erase a h) (Memory.not_mem_erase m a) (Nat.zero_le a) ha ‹_›

@[simp] theorem Memory.wf_zeros : Memory.zeros.wf = true := rfl

@[simp] theorem Memory.read_zeros (a : Nat) : Memory.zeros.read a = 0x00 := rfl

theorem Memory.wf_ofBytesFrom {a : Nat} {vs : List Byte} (h : a + vs.length ≤ 7) :
    (Memory.ofBytesFrom a vs).wf = true := by
  induction vs generalizing a with
  | nil => rfl
  | cons v vs ih =>
    rw [List.length_cons] at h
    exact Memory.wf_write v (ih (by omega)) (by omega)

/-- Memory built from listed bytes reads them back, and 0x00 elsewhere. -/
theorem Memory.read_ofBytesFrom (a : Nat) (vs : List Byte) (c : Nat) :
    (Memory.ofBytesFrom a vs).read c = if a ≤ c then vs.getD (c - a) 0x00 else 0x00 := by
  induction vs generalizing a with
  | nil => simp [Memory.ofBytesFrom]
  | cons v vs ih =>
    rw [Memory.ofBytesFrom, Memory.read_write, ih]
    rcases Nat.lt_trichotomy a c with h | h | h
    · obtain ⟨k, hk⟩ : ∃ k, c - a = k + 1 := ⟨c - a - 1, by omega⟩
      rw [if_neg (by omega), if_pos (by omega), if_pos (by omega), hk, List.getD_cons_succ]
      congr 1
      omega
    · subst h
      simp
    · rw [if_neg (by omega), if_neg (by omega), if_neg (by omega)]

theorem Memory.read_of_wfFrom {lo : Nat} {m : Memory} (h : Memory.wfFrom lo m = true) {a : Nat} (ha : a < lo) :
    m.read a = unlistedByte := by
  induction m generalizing lo with
  | nil => rfl
  | cons p m ih =>
    obtain ⟨b, v⟩ := p
    rw [Memory.wfFrom_cons] at h
    rw [Memory.read_cons, if_neg (by omega)]
    exact ih h.2.2.2 (by omega)

theorem Memory.eq_of_wfFrom {lo : Nat} {m m' : Memory} (h : Memory.wfFrom lo m = true) (h' : Memory.wfFrom lo m' = true)
    (hr : ∀ a < 7, m.read a = m'.read a) : m = m' := by
  induction m generalizing lo m' with
  | nil =>
    cases m' with
    | nil => rfl
    | cons p m' =>
      obtain ⟨b, v⟩ := p
      rw [Memory.wfFrom_cons] at h'
      have e := hr b h'.2.1
      rw [Memory.read_cons, if_pos rfl] at e
      exact absurd e.symm h'.2.2.1
  | cons p m ih =>
    obtain ⟨b, v⟩ := p
    rw [Memory.wfFrom_cons] at h
    have eb := hr b h.2.1
    rw [Memory.read_cons, if_pos rfl] at eb
    cases m' with
    | nil => exact absurd eb h.2.2.1
    | cons p' m' =>
      obtain ⟨b', v'⟩ := p'
      rw [Memory.wfFrom_cons] at h'
      have eb' := hr b' h'.2.1
      rw [Memory.read_cons, Memory.read_cons, if_pos rfl] at eb'
      rw [Memory.read_cons] at eb
      have hbb : b' = b := by
        by_contra hne
        rcases Nat.lt_or_gt_of_ne hne with hlt | hlt
        · rw [if_neg (by omega), Memory.read_of_wfFrom h.2.2.2 (by omega)] at eb'
          exact h'.2.2.1 eb'.symm
        · rw [if_neg (by omega), Memory.read_of_wfFrom h'.2.2.2 (by omega)] at eb
          exact h.2.2.1 eb
      subst hbb
      rw [if_pos rfl] at eb
      subst eb
      congr 1
      refine ih h.2.2.2 h'.2.2.2 fun a ha => ?_
      by_cases hab : b' = a
      · subst hab
        rw [Memory.read_of_wfFrom h.2.2.2 (by omega), Memory.read_of_wfFrom h'.2.2.2 (by omega)]
      · have e := hr a ha
        rwa [Memory.read_cons, Memory.read_cons, if_neg hab, if_neg hab] at e

/-- Two frames in canonical form that read alike at the seven indices are the same frame. -/
theorem Memory.eq_of_wf {m m' : Memory} (h : m.wf = true) (h' : m'.wf = true) (hr : ∀ a < 7, m.read a = m'.read a) :
    m = m' :=
  Memory.eq_of_wfFrom h h' hr

end Sys2Proof.Machine
end

