-- ==== Sys2Proof/Laws/State.lean ====
section
/-! SUPPORT. One lemma per field per update of the state, so that no later proof unfolds a record update. -/
namespace Sys2Proof.Machine

section
variable (s : State) (v : Byte)
@[simp] theorem State.setCrc_crc : (s.setCrc v).crc = v := rfl
@[simp] theorem State.setCrc_frame : (s.setCrc v).frame = s.frame := rfl
@[simp] theorem State.setCrc_stat : (s.setCrc v).stat = s.stat := rfl
@[simp] theorem State.setCrc_res : (s.setCrc v).res = s.res := rfl
@[simp] theorem State.setCrc_bsr : (s.setCrc v).bsr = s.bsr := rfl
@[simp] theorem State.setCrc_fpFmt : (s.setCrc v).fpFmt = s.fpFmt := rfl
@[simp] theorem State.setCrc_frameIn : (s.setCrc v).frameIn = s.frameIn := rfl
@[simp] theorem State.setCrc_pending : (s.setCrc v).pending = s.pending := rfl
end

section
variable (s : State) (m : Memory)
@[simp] theorem State.setFrame_crc : (s.setFrame m).crc = s.crc := rfl
@[simp] theorem State.setFrame_frame : (s.setFrame m).frame = m := rfl
@[simp] theorem State.setFrame_stat : (s.setFrame m).stat = s.stat := rfl
@[simp] theorem State.setFrame_res : (s.setFrame m).res = s.res := rfl
@[simp] theorem State.setFrame_bsr : (s.setFrame m).bsr = s.bsr := rfl
@[simp] theorem State.setFrame_fpFmt : (s.setFrame m).fpFmt = s.fpFmt := rfl
@[simp] theorem State.setFrame_frameIn : (s.setFrame m).frameIn = s.frameIn := rfl
@[simp] theorem State.setFrame_pending : (s.setFrame m).pending = s.pending := rfl
end

section
variable (s : State) (v : Byte)
@[simp] theorem State.setStat_crc : (s.setStat v).crc = s.crc := rfl
@[simp] theorem State.setStat_frame : (s.setStat v).frame = s.frame := rfl
@[simp] theorem State.setStat_stat : (s.setStat v).stat = v := rfl
@[simp] theorem State.setStat_res : (s.setStat v).res = s.res := rfl
@[simp] theorem State.setStat_bsr : (s.setStat v).bsr = s.bsr := rfl
@[simp] theorem State.setStat_fpFmt : (s.setStat v).fpFmt = s.fpFmt := rfl
@[simp] theorem State.setStat_frameIn : (s.setStat v).frameIn = s.frameIn := rfl
@[simp] theorem State.setStat_pending : (s.setStat v).pending = s.pending := rfl
end

section
variable (s : State) (v : ResWord)
@[simp] theorem State.setRes_crc : (s.setRes v).crc = s.crc := rfl
@[simp] theorem State.setRes_frame : (s.setRes v).frame = s.frame := rfl
@[simp] theorem State.setRes_stat : (s.setRes v).stat = s.stat := rfl
@[simp] theorem State.setRes_res : (s.setRes v).res = v := rfl
@[simp] theorem State.setRes_bsr : (s.setRes v).bsr = s.bsr := rfl
@[simp] theorem State.setRes_fpFmt : (s.setRes v).fpFmt = s.fpFmt := rfl
@[simp] theorem State.setRes_frameIn : (s.setRes v).frameIn = s.frameIn := rfl
@[simp] theorem State.setRes_pending : (s.setRes v).pending = s.pending := rfl
end

section
variable (s : State) (v : Byte)
@[simp] theorem State.setBsr_crc : (s.setBsr v).crc = s.crc := rfl
@[simp] theorem State.setBsr_frame : (s.setBsr v).frame = s.frame := rfl
@[simp] theorem State.setBsr_stat : (s.setBsr v).stat = s.stat := rfl
@[simp] theorem State.setBsr_res : (s.setBsr v).res = s.res := rfl
@[simp] theorem State.setBsr_bsr : (s.setBsr v).bsr = v := rfl
@[simp] theorem State.setBsr_fpFmt : (s.setBsr v).fpFmt = s.fpFmt := rfl
@[simp] theorem State.setBsr_frameIn : (s.setBsr v).frameIn = s.frameIn := rfl
@[simp] theorem State.setBsr_pending : (s.setBsr v).pending = s.pending := rfl
end

section
variable (s : State) (e : ErrCause) (op : Op)
@[simp] theorem State.raise_crc : (s.raise e op).crc = s.crc := rfl
@[simp] theorem State.raise_frame : (s.raise e op).frame = s.frame := rfl
@[simp] theorem State.raise_stat : (s.raise e op).stat = s.stat := rfl
@[simp] theorem State.raise_res : (s.raise e op).res = s.res := rfl
@[simp] theorem State.raise_bsr : (s.raise e op).bsr = bsrRaise e op s.bsr := rfl
@[simp] theorem State.raise_fpFmt : (s.raise e op).fpFmt = s.fpFmt := rfl
@[simp] theorem State.raise_frameIn : (s.raise e op).frameIn = s.frameIn := rfl
@[simp] theorem State.raise_pending : (s.raise e op).pending = s.pending := rfl
end

section
variable (s : State) (f : FrameIn) (rest : List HostEvent)
@[simp] theorem State.accept_crc : (s.accept f rest).crc = s.crc := rfl
@[simp] theorem State.accept_frame : (s.accept f rest).frame = s.frame := rfl
@[simp] theorem State.accept_stat : (s.accept f rest).stat = s.stat := rfl
@[simp] theorem State.accept_res : (s.accept f rest).res = s.res := rfl
@[simp] theorem State.accept_bsr : (s.accept f rest).bsr = s.bsr := rfl
@[simp] theorem State.accept_fpFmt : (s.accept f rest).fpFmt = s.fpFmt := rfl
@[simp] theorem State.accept_frameIn : (s.accept f rest).frameIn = f := rfl
@[simp] theorem State.accept_pending : (s.accept f rest).pending = rest := rfl
end

section
variable (s : State)
@[simp] theorem State.resetBlock_crc : (s.resetBlock).crc = 0xFF := rfl
@[simp] theorem State.resetBlock_frame : (s.resetBlock).frame = [] := rfl
@[simp] theorem State.resetBlock_stat : (s.resetBlock).stat = 0x00 := rfl
@[simp] theorem State.resetBlock_res : (s.resetBlock).res = 0 := rfl
@[simp] theorem State.resetBlock_bsr : (s.resetBlock).bsr = 0x00 := rfl
@[simp] theorem State.resetBlock_fpFmt : (s.resetBlock).fpFmt = s.fpFmt := rfl
@[simp] theorem State.resetBlock_frameIn : (s.resetBlock).frameIn = s.frameIn := rfl
@[simp] theorem State.resetBlock_pending : (s.resetBlock).pending = s.pending := rfl
end

end Sys2Proof.Machine
end

