-- ==== Sys2Proof/Laws/Exec.lean ====
section
/-! SUPPORT. What each command does, once; and from that the shapes a next state can have. -/
namespace Sys2Proof.Machine

section
variable (s : State)

theorem exec_nop : exec .nop s = .next s := rfl

theorem exec_crcInit : exec .crcInit s = .next (s.setCrc 0xFF) := rfl

theorem exec_crcStep (d : Byte) :
    exec (.crcStep d) s = .next ((s.setCrc (crcNext s.crc d)).setRes (resOfByte (crcNext s.crc d))) := rfl

theorem exec_crcRead : exec .crcRead s = .next (s.setRes (resOfByte s.crc)) := rfl

theorem exec_crcFrame : exec .crcFrame s = .next (s.setRes (resOfByte (crc8 (frameBytes6 s.frame)))) := rfl

theorem exec_crcCheck :
    exec .crcCheck s = .next (s.setRes (resOfBool (crc8 (frameBytes6 s.frame) == s.frame.read 6))) := rfl

theorem exec_bsrRead : exec .bsrRead s = .next (s.setRes (resOfByte s.bsr)) := rfl

theorem exec_cfgRead : exec .cfgRead s = .next (s.setRes (resOfByte s.cfg)) := rfl

theorem exec_frameClear : exec .frameClear s = .next (s.setFrame Memory.zeros) := rfl

theorem exec_frameWrite_legal {idx : Idx} (h : idx ≠ 7) (d : Byte) :
    exec (.frameWrite idx d) s = .next (s.setFrame (s.frame.write idx.toNat d)) := if_neg h

theorem exec_frameWrite_seven (d : Byte) : exec (.frameWrite 7 d) s = .next (s.raise .badIndex 0x09) := rfl

theorem exec_frameLoad :
    exec .frameLoad s = .next (s.setFrame (Memory.ofBytesFrom 0 (frameInBytes s.frameIn))) := rfl

theorem exec_frameRead_legal {idx : Idx} (h : idx ≠ 7) :
    exec (.frameRead idx) s = .next (s.setRes (resOfByte (s.frame.read idx.toNat))) := if_neg h

theorem exec_frameRead_seven : exec (.frameRead 7) s = .next (s.raise .badIndex 0x0B) := rfl

theorem exec_humBits : exec .humBits s = .next (s.setRes (resOfField (humBits s.frame))) := rfl

theorem exec_tempBits : exec .tempBits s = .next (s.setRes (resOfField (tempBits s.frame))) := rfl

theorem exec_humPct :
    exec .humPct s = .next (s.setRes (resOfFloat s.fpFmt (humidityPercent s.fpFmt (humBits s.frame).toNat))) := rfl

theorem exec_tempC :
    exec .tempC s = .next (s.setRes (resOfFloat s.fpFmt (temperatureCelsius s.fpFmt (tempBits s.frame).toNat))) := rfl

theorem exec_statLoad (d : Byte) : exec (.statLoad d) s = .next (s.setStat d) := rfl

theorem exec_statFromFrame : exec .statFromFrame s = .next (s.setStat (s.frame.read 0)) := rfl

theorem exec_statRead : exec .statRead s = .next (s.setRes (resOfByte s.stat)) := rfl

theorem exec_isBusy : exec .isBusy s = .next (s.setRes (resOfBool (isBusyTest s.stat))) := rfl

theorem exec_isCal : exec .isCal s = .next (s.setRes (resOfBool (isCalTest s.stat))) := rfl

theorem exec_isNormal : exec .isNormal s = .next (s.setRes (resOfBool (isNormalTest s.stat))) := rfl

theorem exec_isCyclic : exec .isCyclic s = .next (s.setRes (resOfBool (isCyclicTest s.stat))) := rfl

theorem exec_isCommand : exec .isCommand s = .next (s.setRes (resOfBool (isCommandTest s.stat))) := rfl

end

/-- An index that is not 7 is a frame index. -/
theorem idx_lt_seven : ∀ idx : Idx, idx ≠ 7 → idx.toNat < 7 := by decide

/-- The shapes of a next state: nothing, CRC, CRC and RES, RES, STAT, a frame that stays canonical, or a BAD_INDEX. -/
inductive ExecShape (s : State) : State → Prop where
  | same : ExecShape s s
  | crc (v : Byte) : ExecShape s (s.setCrc v)
  | crcRes (v : Byte) (r : ResWord) : ExecShape s ((s.setCrc v).setRes r)
  | res (r : ResWord) : ExecShape s (s.setRes r)
  | stat (v : Byte) : ExecShape s (s.setStat v)
  | frame (m : Memory) (h : s.frame.wf = true → m.wf = true) : ExecShape s (s.setFrame m)
  | badIndex (op : Op) (h : op = 0x09 ∨ op = 0x0B) : ExecShape s (s.raise .badIndex op)

/-- Every command answers a next state of one of these shapes. -/
theorem exec_shape (i : Instr) (s : State) : ∃ t, exec i s = .next t ∧ ExecShape s t := by
  cases i with
  | nop => exact ⟨_, rfl, .same⟩
  | crcInit => exact ⟨_, rfl, .crc _⟩
  | crcStep d => exact ⟨_, rfl, .crcRes _ _⟩
  | frameClear => exact ⟨_, rfl, .frame _ fun _ => rfl⟩
  | frameWrite idx d =>
    by_cases h : idx = 7
    · subst h
      exact ⟨_, rfl, .badIndex _ (.inl rfl)⟩
    · exact ⟨_, exec_frameWrite_legal s h d, .frame _ fun hw => Memory.wf_write d hw (idx_lt_seven idx h)⟩
  | frameLoad => exact ⟨_, rfl, .frame _ fun _ => Memory.wf_ofBytesFrom (by simp [frameInBytes])⟩
  | frameRead idx =>
    by_cases h : idx = 7
    · subst h
      exact ⟨_, rfl, .badIndex _ (.inr rfl)⟩
    · exact ⟨_, exec_frameRead_legal s h, .res _⟩
  | statLoad d => exact ⟨_, rfl, .stat _⟩
  | statFromFrame => exact ⟨_, rfl, .stat _⟩
  | crcRead | crcFrame | crcCheck | bsrRead | cfgRead | humBits | tempBits | humPct | tempC | statRead | isBusy | isCal
  | isNormal | isCyclic | isCommand => exact ⟨_, rfl, .res _⟩

/-- What a step does with a pending command that decodes. -/
theorem step_command {s : State} {w : CmdWord} {f : FrameIn} {rest : List HostEvent} {i : Instr}
    (hp : s.pending = .command w f :: rest) (hd : decode w = .ok i) : step s = exec i (s.accept f rest) := by
  simp [step, hp, hd]

/-- What a step does with a pending command whose OP is reserved. -/
theorem step_reserved {s : State} {w : CmdWord} {f : FrameIn} {rest : List HostEvent} {op : Op}
    (hp : s.pending = .command w f :: rest) (hd : decode w = .error (.reservedOp op)) :
    step s = .next ((s.accept f rest).raise .illegalOp op) := by
  simp [step, hp, hd]

theorem step_reset {s : State} {rest : List HostEvent} (hp : s.pending = .reset :: rest) :
    step s = .next ((s.accept s.frameIn rest).resetBlock) := by
  simp [step, hp]

theorem step_idle {s : State} (hp : s.pending = []) : step s = .next s := by
  simp [step, hp]

/-- A run of one more step of any machine: the step, then the rest of the run. -/
theorem run_next (M : Host.Core) (k : Nat) (s t : M.State) (h : M.step s = .next t) : M.run (k + 1) s = M.run k t := by
  rw [Host.Core.run.eq_2, h]

/-- A run of one more step of the block. -/
theorem run_succ {s t : State} {k : Nat} (h : step s = .next t) : core.run (k + 1) s = core.run k t :=
  run_next core k s t h

@[simp] theorem run_zero (s : State) : core.run 0 s = .next s := rfl

end Sys2Proof.Machine
end

