-- ==== Sys2Proof/Laws/Flags.lean ====
section
/-! SUPPORT. The fields of BSR and what raising an error leaves in it; the status tests as fields of STAT. -/
namespace Sys2Proof.Machine

@[simp] theorem bsrErr_bsrOf : ∀ (eop : Op) (ec : BitVec 2) (er : BitVec 1), bsrErr (bsrOf eop ec er) = er := by decide

@[simp] theorem bsrEcause_bsrOf : ∀ (eop : Op) (ec : BitVec 2) (er : BitVec 1), bsrEcause (bsrOf eop ec er) = ec := by
  decide

@[simp] theorem bsrEop_bsrOf : ∀ (eop : Op) (ec : BitVec 2) (er : BitVec 1), bsrEop (bsrOf eop ec er) = eop := by decide

theorem bsrOf_fields : ∀ b : Byte, bsrOf (bsrEop b) (bsrEcause b) (bsrErr b) = b := by decide

/-- A one-bit field that is not 0 is 1. -/
theorem bit_eq_one_of_ne_zero : ∀ x : BitVec 1, x ≠ 0 → x = 1 := by decide

/-- The first error writes all three fields. -/
theorem bsrRaise_first {e : ErrCause} {op : Op} {b : Byte} (h : bsrErr b = 0) : bsrRaise e op b = bsrOf op e.code 1 :=
  if_pos h

/-- A later error changes nothing in BSR. -/
theorem bsrRaise_later {e : ErrCause} {op : Op} {b : Byte} (h : bsrErr b = 1) : bsrRaise e op b = b := by
  unfold bsrRaise
  rw [if_neg (by rw [h]; decide), ← h, bsrOf_fields]

/-- After an error ERR is 1. -/
@[simp] theorem bsrErr_bsrRaise (e : ErrCause) (op : Op) (b : Byte) : bsrErr (bsrRaise e op b) = 1 := by
  unfold bsrRaise
  split <;> simp

/-- Raising twice is raising once. -/
theorem bsrRaise_bsrRaise (e : ErrCause) (op : Op) (b : Byte) : bsrRaise e op (bsrRaise e op b) = bsrRaise e op b :=
  bsrRaise_later (bsrErr_bsrRaise e op b)

theorem bsrLegal_illegalOp : ∀ op : Op, 0x18 ≤ op.toNat → bsrLegal (bsrOf op 0b01 1) = true := by decide

theorem bsrLegal_badIndex : ∀ op : Op, op = 0x09 ∨ op = 0x0B → bsrLegal (bsrOf op 0b10 1) = true := by decide

/-- An ILLEGAL_OP of a reserved OP leaves BSR legal. -/
theorem bsrLegal_raise_illegalOp {op : Op} {b : Byte} (h : bsrLegal b = true) (hop : 0x18 ≤ op.toNat) :
    bsrLegal (bsrRaise .illegalOp op b) = true := by
  by_cases hb : bsrErr b = 0
  · rw [bsrRaise_first hb]
    exact bsrLegal_illegalOp op hop
  · rwa [bsrRaise_later (bit_eq_one_of_ne_zero _ hb)]

/-- A BAD_INDEX of FRAME_WRITE or FRAME_READ leaves BSR legal. -/
theorem bsrLegal_raise_badIndex {op : Op} {b : Byte} (h : bsrLegal b = true) (hop : op = 0x09 ∨ op = 0x0B) :
    bsrLegal (bsrRaise .badIndex op b) = true := by
  by_cases hb : bsrErr b = 0
  · rw [bsrRaise_first hb]
    exact bsrLegal_badIndex op hop
  · rwa [bsrRaise_later (bit_eq_one_of_ne_zero _ hb)]

/-- The five mask tests as tests of the fields (41_status.md R101, R106 to R110). -/
theorem statusTests_fields : ∀ st : Byte,
    isBusyTest st = (statBusy st == 1) ∧ isCalTest st = (statCalen st == 1) ∧
    isNormalTest st = (statMode st == 0b00) ∧ isCyclicTest st = (statMode st == 0b01) ∧
    isCommandTest st = (statMode st == 0b10 || statMode st == 0b11) := by decide

end Sys2Proof.Machine
end

