-- ==== Sys2Proof/Laws/Ieee.lean ====
section
/-! SUPPORT. The converter's arithmetic: rounding an integer to a multiple of a power of two and to a number of
significant bits, the value of a packed bit pattern, and that `resOfFloat` of `rne` is the nearest float. -/
namespace Sys2Proof.Machine

/-! Rounding to a multiple of `2^k` -/

theorem roundAt_cases (k n : Nat) :
    (roundAt k n = n / 2 ^ k * 2 ^ k ∧ 2 * (n % 2 ^ k) ≤ 2 ^ k ∧ (2 * (n % 2 ^ k) = 2 ^ k → n / 2 ^ k % 2 = 0)) ∨
    (roundAt k n = (n / 2 ^ k + 1) * 2 ^ k ∧ 2 ^ k ≤ 2 * (n % 2 ^ k) ∧
      (2 * (n % 2 ^ k) = 2 ^ k → (n / 2 ^ k + 1) % 2 = 0)) := by
  unfold roundAt
  split
  · right
    refine ⟨rfl, ?_, ?_⟩ <;> omega
  · left
    refine ⟨rfl, ?_, ?_⟩ <;> omega

theorem roundAt_zero (n : Nat) : roundAt 0 n = n := by
  simp [roundAt, Nat.mod_one]

/-- The rounded number is a multiple of the spacing. -/
theorem pow_dvd_roundAt (k n : Nat) : 2 ^ k ∣ roundAt k n :=
  Dvd.intro_left _ rfl

/-- No multiple of the spacing is nearer; where another is as near, the rounded number is the even multiple. -/
theorem roundAt_nearest (k n : Nat) (c : ℤ) :
    |(roundAt k n : ℤ) - n| ≤ |c * 2 ^ k - n| ∧
    (|c * 2 ^ k - n| = |(roundAt k n : ℤ) - n| → c * 2 ^ k = roundAt k n ∨ roundAt k n / 2 ^ k % 2 = 0) := by
  have hD : 0 < 2 ^ k := Nat.two_pow_pos k
  have hn : n / 2 ^ k * 2 ^ k + n % 2 ^ k = n := Nat.div_add_mod' n (2 ^ k)
  have hr : n % 2 ^ k < 2 ^ k := Nat.mod_lt n hD
  have hcast : ((2 : ℤ) ^ k) = ((2 ^ k : ℕ) : ℤ) := by push_cast; rfl
  have hc : c * ((2 ^ k : ℕ) : ℤ) ≤ (n / 2 ^ k * 2 ^ k : ℕ) ∨ ((n / 2 ^ k + 1) * 2 ^ k : ℕ) ≤ c * ((2 ^ k : ℕ) : ℤ) := by
    rcases le_or_gt c (n / 2 ^ k : ℕ) with h | h
    · left
      push_cast at h ⊢
      exact mul_le_mul_of_nonneg_right h (by positivity)
    · right
      push_cast at h ⊢
      exact mul_le_mul_of_nonneg_right h (by positivity)
  have hs : (n / 2 ^ k + 1) * 2 ^ k = n / 2 ^ k * 2 ^ k + 2 ^ k := by ring
  rw [hcast]
  simp only [abs_eq_max_neg]
  generalize c * ((2 ^ k : ℕ) : ℤ) = C at *
  rcases roundAt_cases k n with ⟨hN, h1, h2⟩ | ⟨hN, h1, h2⟩ <;> rw [hN, Nat.mul_div_cancel _ hD] <;> omega

/-! Rounding to significant bits -/

theorem roundSig_of_lt {p n : Nat} (h : n < 2 ^ p) : roundSig p n = n := by
  by_cases hn : n = 0
  · subst hn
    simp [roundSig, roundAt]
  · have := (Nat.log2_lt hn).mpr h
    rw [roundSig, show n.log2 + 1 - p = 0 by omega, roundAt_zero]

@[simp] theorem roundSig_zero (p : Nat) : roundSig p 0 = 0 :=
  roundSig_of_lt (Nat.two_pow_pos p)

/-- A number of more than `p` bits is rounded within its binade or to the next power of two, at a spacing that leaves
`p` bits. -/
theorem roundSig_spec {p n : Nat} (hp : 1 ≤ p) (h : 2 ^ p ≤ n) :
    ∃ k, n.log2 + 1 = p + k ∧ roundSig p n = roundAt k n ∧ 2 ^ k ∣ roundSig p n ∧
      2 ^ n.log2 ≤ roundSig p n ∧ roundSig p n ≤ 2 ^ (n.log2 + 1) := by
  have hn : n ≠ 0 := by
    have := Nat.two_pow_pos p
    omega
  have hlog : p ≤ n.log2 := (Nat.le_log2 hn).mpr h
  obtain ⟨k, hk⟩ : ∃ k, n.log2 + 1 = p + k := ⟨n.log2 + 1 - p, by omega⟩
  have hround : roundSig p n = roundAt k n := by rw [roundSig, show n.log2 + 1 - p = k by omega]
  have hlo : 2 ^ n.log2 ≤ n := Nat.log2_self_le hn
  have hhi : n < 2 ^ (n.log2 + 1) := Nat.lt_log2_self
  have hk1 : 2 ^ n.log2 = 2 ^ (p - 1) * 2 ^ k := by rw [← pow_add]; congr 1; omega
  have hk2 : 2 ^ (n.log2 + 1) = 2 ^ p * 2 ^ k := by rw [← pow_add]; congr 1
  have hq1 : 2 ^ (p - 1) ≤ n / 2 ^ k := by
    rw [Nat.le_div_iff_mul_le (Nat.two_pow_pos k), ← hk1]
    exact hlo
  have hq2 : n / 2 ^ k + 1 ≤ 2 ^ p := by
    rw [Nat.succ_le_iff, Nat.div_lt_iff_lt_mul (Nat.two_pow_pos k), ← hk2]
    exact hhi
  refine ⟨k, hk, hround, hround ▸ pow_dvd_roundAt k n, ?_⟩
  rw [hround, hk1, hk2]
  rcases roundAt_cases k n with ⟨hN, -, -⟩ | ⟨hN, -, -⟩ <;> rw [hN] <;>
    exact ⟨Nat.mul_le_mul_right _ (by omega), Nat.mul_le_mul_right _ (by omega)⟩

/-- Rounding keeps the order. -/
theorem roundAt_mono (k : Nat) {m n : Nat} (h : m ≤ n) : roundAt k m ≤ roundAt k n := by
  have hD : 0 < 2 ^ k := Nat.two_pow_pos k
  have hm := Nat.div_add_mod' m (2 ^ k)
  have hn := Nat.div_add_mod' n (2 ^ k)
  have hrm : m % 2 ^ k < 2 ^ k := Nat.mod_lt m hD
  have hrn : n % 2 ^ k < 2 ^ k := Nat.mod_lt n hD
  rcases (Nat.div_le_div_right h : m / 2 ^ k ≤ n / 2 ^ k).lt_or_eq with hq | hq
  · have h1 : roundAt k m ≤ (m / 2 ^ k + 1) * 2 ^ k := by
      rcases roundAt_cases k m with ⟨hN, -, -⟩ | ⟨hN, -, -⟩ <;> rw [hN]
      exact Nat.mul_le_mul_right _ (by omega)
    have h2 : n / 2 ^ k * 2 ^ k ≤ roundAt k n := by
      rcases roundAt_cases k n with ⟨hN, -, -⟩ | ⟨hN, -, -⟩ <;> rw [hN]
      exact Nat.mul_le_mul_right _ (by omega)
    exact h1.trans ((Nat.mul_le_mul_right _ hq).trans h2)
  · unfold roundAt
    rw [hq] at hm ⊢
    refine Nat.mul_le_mul_right _ ?_
    split <;> split <;> omega

theorem roundSig_mono {p m n : Nat} (hp : 1 ≤ p) (h : m ≤ n) : roundSig p m ≤ roundSig p n := by
  by_cases hm : m < 2 ^ p
  · rw [roundSig_of_lt hm]
    by_cases hn : n < 2 ^ p
    · rwa [roundSig_of_lt hn]
    · obtain ⟨k, hk, -, -, hlo, -⟩ := roundSig_spec hp (Nat.not_lt.mp hn)
      have hn0 : n ≠ 0 := by have := Nat.two_pow_pos p; omega
      have : 2 ^ p ≤ 2 ^ n.log2 := Nat.pow_le_pow_right (by omega) ((Nat.le_log2 hn0).mpr (Nat.not_lt.mp hn))
      omega
  · have hm' := Nat.not_lt.mp hm
    have hm0 : m ≠ 0 := by have := Nat.two_pow_pos p; omega
    have hn0 : n ≠ 0 := by omega
    rcases (show m.log2 ≤ n.log2 from (Nat.le_log2 hn0).mpr ((Nat.log2_self_le hm0).trans h)).lt_or_eq with hl | hl
    · obtain ⟨-, -, -, -, -, h1⟩ := roundSig_spec hp hm'
      obtain ⟨-, -, -, -, h2, -⟩ := roundSig_spec hp (hm'.trans h)
      exact h1.trans ((Nat.pow_le_pow_right (by omega) hl).trans h2)
    · rw [roundSig, roundSig, hl]
      exact roundAt_mono _ h

/-! Packed bit patterns -/

/-- The all-ones exponent field of a format. -/
def expOnes : FpFmt → Nat
  | .binary32 => 255
  | .binary64 => 2047

theorem floatFinite_iff (f : FpFmt) (w : ResWord) : FloatFinite f w ↔ floatExp f w < expOnes f := by
  cases f <;> rfl

/-- A binary32 pattern's number, from its three fields. -/
theorem append32_toNat (b : Bool) (e m : Nat) (he : e < 2 ^ 8) (hm : m < 2 ^ 23) :
    (BitVec.ofBool b ++ BitVec.ofNat 8 e ++ BitVec.ofNat 23 m : BitVec 32).toNat =
      b.toNat * 2 ^ 31 + e * 2 ^ 23 + m := by
  have h8 : (BitVec.ofNat 8 e).toNat = e := by rw [BitVec.toNat_ofNat, Nat.mod_eq_of_lt he]
  have h23 : (BitVec.ofNat 23 m).toNat = m := by rw [BitVec.toNat_ofNat, Nat.mod_eq_of_lt hm]
  rw [BitVec.toNat_append, BitVec.toNat_append, h8, h23, BitVec.toNat_ofBool, ← Nat.shiftLeft_add_eq_or_of_lt hm,
    ← Nat.shiftLeft_add_eq_or_of_lt he, Nat.shiftLeft_eq, Nat.shiftLeft_eq]
  ring

/-- A binary64 pattern's number, from its three fields. -/
theorem append64_toNat (b : Bool) (e m : Nat) (he : e < 2 ^ 11) (hm : m < 2 ^ 52) :
    (BitVec.ofBool b ++ BitVec.ofNat 11 e ++ BitVec.ofNat 52 m : BitVec 64).toNat =
      b.toNat * 2 ^ 63 + e * 2 ^ 52 + m := by
  have h11 : (BitVec.ofNat 11 e).toNat = e := by rw [BitVec.toNat_ofNat, Nat.mod_eq_of_lt he]
  have h52 : (BitVec.ofNat 52 m).toNat = m := by rw [BitVec.toNat_ofNat, Nat.mod_eq_of_lt hm]
  rw [BitVec.toNat_append, BitVec.toNat_append, h11, h52, BitVec.toNat_ofBool, ← Nat.shiftLeft_add_eq_or_of_lt hm,
    ← Nat.shiftLeft_add_eq_or_of_lt he, Nat.shiftLeft_eq, Nat.shiftLeft_eq]
  ring

theorem getLsbD_eq_div (w : ResWord) (i : Nat) : w.getLsbD i = decide (w.toNat / 2 ^ i % 2 = 1) := by
  rw [BitVec.getLsbD, Nat.testBit_eq_decide_div_mod_eq]

/-- The fields of a packed non-zero value whose exponent and fraction are in range. -/
theorem resOfFloat_fields {f : FpFmt} {v : Exact} (hv : v.num ≠ 0) (he : biasedExp f v < expOnes f)
    (hm : fraction f v < 2 ^ fracBits f) :
    floatExp f (resOfFloat f v) = biasedExp f v ∧ floatFrac f (resOfFloat f v) = fraction f v ∧
      floatSign f (resOfFloat f v) = decide (v.num < 0) ∧ FitsFormat f (resOfFloat f v) := by
  cases f with
  | binary32 =>
    have he' : biasedExp .binary32 v < 2 ^ 8 := Nat.lt_of_lt_of_le he (by decide)
    have hw : (resOfFloat .binary32 v).toNat =
        (decide (v.num < 0)).toNat * 2 ^ 31 + biasedExp .binary32 v * 2 ^ 23 + fraction .binary32 v := by
      rw [resOfFloat, BitVec.toNat_setWidth, bits32, if_neg hv, append32_toNat _ _ _ he' hm]
      refine Nat.mod_eq_of_lt ?_
      have := Bool.toNat_le (decide (v.num < 0))
      rw [fracBits] at hm
      omega
    have hb := Bool.toNat_le (decide (v.num < 0))
    rw [fracBits] at hm
    refine ⟨?_, ?_, ?_, ?_⟩
    · simp only [floatExp, BitVec.extractLsb'_toNat, Nat.shiftRight_eq_div_pow, hw]
      omega
    · simp only [floatFrac, BitVec.extractLsb'_toNat, Nat.shiftRight_eq_div_pow, hw]
      omega
    · simp only [floatSign, getLsbD_eq_div, hw]
      cases decide (v.num < 0) <;> simp <;> omega
    · refine BitVec.eq_of_toNat_eq ?_
      rw [BitVec.extractLsb'_toNat, hw, Nat.shiftRight_eq_div_pow]
      show _ = 0
      omega
  | binary64 =>
    have he' : biasedExp .binary64 v < 2 ^ 11 := Nat.lt_of_lt_of_le he (by decide)
    have hw : (resOfFloat .binary64 v).toNat =
        (decide (v.num < 0)).toNat * 2 ^ 63 + biasedExp .binary64 v * 2 ^ 52 + fraction .binary64 v := by
      rw [resOfFloat, bits64, if_neg hv, append64_toNat _ _ _ he' hm]
    rw [fracBits] at hm
    refine ⟨?_, ?_, ?_, trivial⟩
    · simp only [floatExp, BitVec.extractLsb'_toNat, Nat.shiftRight_eq_div_pow, hw]
      omega
    · simp only [floatFrac, BitVec.extractLsb'_toNat, Nat.shiftRight_eq_div_pow, hw]
      omega
    · simp only [floatSign, getLsbD_eq_div, hw]
      cases decide (v.num < 0) <;> simp <;> omega

/-- An exact zero is +0. -/
theorem resOfFloat_zero {f : FpFmt} {v : Exact} (hv : v.num = 0) : resOfFloat f v = 0 := by
  cases f <;> simp [resOfFloat, bits32, bits64, hv]

/-- Both formats' magnitudes, in one form. -/
theorem floatMagnitude_eq (f : FpFmt) (e m : Nat) :
    floatMagnitude f e m =
      if e = 0 then (m : ℚ) * 2 ^ (1 - (expBias f : ℤ) - fracBits f)
      else (2 ^ fracBits f + m : ℚ) * 2 ^ ((e : ℤ) - expBias f - fracBits f) := by
  cases f <;> simp only [floatMagnitude, expBias, fracBits] <;> split <;> congr 2 <;> push_cast <;> ring

/-- The exact value as a rational. -/
def Exact.toRat (v : Exact) : ℚ := v.num / 2 ^ v.scale

/-- A value a format holds: its bits fit the significand and its exponent the exponent field. -/
def Representable (f : FpFmt) (v : Exact) : Prop :=
  v.num = 0 ∨ (2 ^ (v.num.natAbs.log2 + 1 - precision f) ∣ v.num.natAbs ∧ v.scale < v.num.natAbs.log2 + expBias f ∧
    v.num.natAbs.log2 + expBias f < v.scale + expOnes f)

/-- The significand of a representable value, as an integer of `precision f` bits. -/
theorem fraction_add {f : FpFmt} {v : Exact} (hv : v.num ≠ 0)
    (hd : 2 ^ (v.num.natAbs.log2 + 1 - precision f) ∣ v.num.natAbs) :
    (2 ^ fracBits f + fraction f v) * 2 ^ v.num.natAbs.log2 = v.num.natAbs * 2 ^ fracBits f ∧
      fraction f v < 2 ^ fracBits f := by
  unfold fraction precision at *
  have hn0 : v.num.natAbs ≠ 0 := by simpa using hv
  generalize v.num.natAbs = n at *
  have hlo := Nat.log2_self_le hn0
  have hhi : n < 2 ^ (n.log2 + 1) := Nat.lt_log2_self
  generalize n.log2 = L at *
  generalize fracBits f = F at *
  have hdvd : 2 ^ L ∣ n * 2 ^ F := by
    by_cases hL : L ≤ F
    · exact Dvd.dvd.mul_left (pow_dvd_pow 2 hL) n
    · rw [show 2 ^ L = 2 ^ (L + 1 - (F + 1)) * 2 ^ F by rw [← pow_add]; congr 1; omega]
      exact Nat.mul_dvd_mul_right hd _
  obtain ⟨q, hq⟩ := hdvd
  have hP : 0 < 2 ^ L := Nat.two_pow_pos L
  rw [hq, Nat.mul_div_cancel_left _ hP]
  have h1 : 2 ^ F ≤ q := by
    refine Nat.le_of_mul_le_mul_left ?_ hP
    rw [← hq]
    exact Nat.mul_le_mul_right _ hlo
  have h2 : q < 2 ^ (F + 1) := by
    refine Nat.lt_of_mul_lt_mul_left (a := 2 ^ L) ?_
    rw [← hq, show 2 ^ L * 2 ^ (F + 1) = 2 ^ (L + 1) * 2 ^ F by rw [← pow_add, ← pow_add]; congr 1; omega]
    exact Nat.mul_lt_mul_of_pos_right hhi (Nat.two_pow_pos F)
  rw [pow_succ] at h2
  constructor
  · rw [show 2 ^ F + (q - 2 ^ F) = q by omega]
    ring
  · omega

/-- What a representable value's bit pattern holds and stands for. -/
theorem resOfFloat_spec {f : FpFmt} {v : Exact} (h : Representable f v) :
    floatValue f (resOfFloat f v) = v.toRat ∧ FloatFinite f (resOfFloat f v) ∧ FitsFormat f (resOfFloat f v) ∧
      floatSign f (resOfFloat f v) = decide (v.num < 0) ∧
      (v.num ≠ 0 → floatExp f (resOfFloat f v) ≠ 0 ∧ floatFrac f (resOfFloat f v) = fraction f v) := by
  by_cases hv : v.num = 0
  · rw [resOfFloat_zero hv]
    cases f <;> simp [floatValue, floatMagnitude, floatExp, floatFrac, floatSign, FloatFinite, FitsFormat, Exact.toRat, hv]
  · obtain ⟨hd, hlo, hhi⟩ := h.resolve_left hv
    obtain ⟨hsig, hm⟩ := fraction_add hv hd
    have he : biasedExp f v < expOnes f := by
      unfold biasedExp
      omega
    have he0 : biasedExp f v ≠ 0 := by
      unfold biasedExp
      omega
    obtain ⟨hE, hF, hS, hfit⟩ := resOfFloat_fields hv he hm
    refine ⟨?_, (floatFinite_iff f _).mpr (hE ▸ he), hfit, hS, fun _ => ⟨hE ▸ he0, hF⟩⟩
    rw [floatValue, hE, hF, hS, floatMagnitude_eq, if_neg he0, Exact.toRat]
    have hexp : ((biasedExp f v : ℕ) : ℤ) - expBias f - fracBits f = (v.num.natAbs.log2 : ℤ) - v.scale - fracBits f := by
      unfold biasedExp
      omega
    have hsigQ : (2 ^ fracBits f + fraction f v : ℚ) * 2 ^ v.num.natAbs.log2 = v.num.natAbs * 2 ^ fracBits f := by
      exact_mod_cast hsig
    have hmag : (2 ^ fracBits f + fraction f v : ℚ) * 2 ^ ((v.num.natAbs.log2 : ℤ) - v.scale - fracBits f) =
        v.num.natAbs / 2 ^ v.scale := by
      rw [zpow_sub₀ two_ne_zero, zpow_sub₀ two_ne_zero, zpow_natCast, zpow_natCast, zpow_natCast]
      calc _ = (2 ^ fracBits f + fraction f v : ℚ) * 2 ^ v.num.natAbs.log2 / 2 ^ v.scale / 2 ^ fracBits f := by ring
        _ = _ := by
          rw [hsigQ]
          field_simp
    have hsign : (if decide (v.num < 0) = true then -1 else 1) * (v.num.natAbs : ℚ) = v.num := by
      rw [Nat.cast_natAbs]
      by_cases hneg : v.num < 0
      · simp [hneg, abs_of_neg hneg]
      · simp [hneg, abs_of_nonneg (not_lt.mp hneg)]
    rw [hexp, hmag, ← hsign]
    ring

/-! The nearest float -/

theorem floatFrac_lt (f : FpFmt) (w : ResWord) : floatFrac f w < 2 ^ fracBits f := by
  cases f <;> exact BitVec.isLt _

/-- Every word stands for an integer of at most `precision f` bits times a power of two. -/
theorem floatValue_form (f : FpFmt) (w : ResWord) :
    ∃ c j : ℤ, |c| < 2 ^ precision f ∧ floatValue f w = c * 2 ^ j := by
  have hm := floatFrac_lt f w
  obtain ⟨c, j, hc, hv⟩ : ∃ (c : ℕ) (j : ℤ), c < 2 ^ precision f ∧
      floatMagnitude f (floatExp f w) (floatFrac f w) = c * 2 ^ j := by
    rw [floatMagnitude_eq, precision, pow_succ]
    split
    · exact ⟨_, _, by omega, rfl⟩
    · exact ⟨2 ^ fracBits f + floatFrac f w, _, by omega, by push_cast; rfl⟩
  have hc' : (c : ℤ) < 2 ^ precision f := by exact_mod_cast hc
  rw [floatValue, hv]
  split
  · exact ⟨-c, j, by rw [abs_neg, Nat.abs_cast]; exact hc', by push_cast; ring⟩
  · exact ⟨c, j, by rw [Nat.abs_cast]; exact hc', by push_cast; ring⟩

/-- Among the numbers of at most `p` significant bits none is nearer to `n / 2^sc` than `roundSig p n / 2^sc`, and where
another is as near the rounded one is even at its spacing. -/
theorem roundSig_nearest {p n : ℕ} (hp : 1 ≤ p) (sc : ℕ) {c : ℤ} (hc : |c| < 2 ^ p) (j : ℤ) :
    |(roundSig p n : ℚ) / 2 ^ sc - n / 2 ^ sc| ≤ |(c : ℚ) * 2 ^ j - n / 2 ^ sc| ∧
    (|(c : ℚ) * 2 ^ j - n / 2 ^ sc| = |(roundSig p n : ℚ) / 2 ^ sc - n / 2 ^ sc| →
      (c : ℚ) * 2 ^ j = roundSig p n / 2 ^ sc ∨ (2 ^ p ≤ n ∧ roundSig p n / 2 ^ (n.log2 + 1 - p) % 2 = 0)) := by
  by_cases hn : n < 2 ^ p
  · rw [roundSig_of_lt hn, sub_self, abs_zero]
    exact ⟨abs_nonneg _, fun h => .inl (sub_eq_zero.mp (abs_eq_zero.mp h))⟩
  have hn := Nat.not_lt.mp hn
  obtain ⟨k, hk, hround, -, -, -⟩ := roundSig_spec hp hn
  have hS : (0 : ℚ) < 2 ^ sc := by positivity
  have hn0 : n ≠ 0 := by have := Nat.two_pow_pos p; omega
  have hdiv (x : ℚ) : |x / 2 ^ sc - n / 2 ^ sc| = |x - n| / 2 ^ sc := by
    rw [← sub_div, abs_div, abs_of_pos hS]
  have hy : (c : ℚ) * 2 ^ j = c * 2 ^ (j + sc) / 2 ^ sc := by
    rw [zpow_add₀ two_ne_zero, zpow_natCast]
    field_simp
  rw [hy, hdiv, hdiv, hround, show n.log2 + 1 - p = k by omega]
  have hmain : |(roundAt k n : ℚ) - n| ≤ |(c : ℚ) * 2 ^ (j + sc) - n| ∧
      (|(c : ℚ) * 2 ^ (j + sc) - n| = |(roundAt k n : ℚ) - n| →
        (c : ℚ) * 2 ^ (j + sc) = roundAt k n ∨ roundAt k n / 2 ^ k % 2 = 0) := by
    by_cases hj : (k : ℤ) ≤ j + sc
    · obtain ⟨d, hd⟩ : ∃ d : ℕ, j + sc = d + k := ⟨(j + sc - k).toNat, by omega⟩
      have hcast : (c : ℚ) * 2 ^ (j + sc) = ((c * 2 ^ d * 2 ^ k : ℤ) : ℚ) := by
        rw [hd, zpow_add₀ two_ne_zero, zpow_natCast, zpow_natCast]
        push_cast
        ring
      rw [hcast]
      have := roundAt_nearest k n (c * 2 ^ d)
      exact_mod_cast this
    · have hL := roundAt_nearest k n (2 ^ (p - 1))
      have hlow : (2 : ℤ) ^ (p - 1) * 2 ^ k = 2 ^ n.log2 := by
        rw [← pow_add]
        congr 1
        omega
      rw [hlow] at hL
      have hle : (2 : ℤ) ^ n.log2 ≤ n := by exact_mod_cast Nat.log2_self_le hn0
      have hlt : (c : ℚ) * 2 ^ (j + sc) < 2 ^ n.log2 := by
        have h1 : (c : ℚ) < 2 ^ p := by exact_mod_cast (abs_lt.mp hc).2
        have h2 : (2 : ℚ) ^ (j + sc) ≤ 2 ^ ((k : ℤ) - 1) := zpow_le_zpow_right₀ one_le_two (by omega)
        have h3 : (2 : ℚ) ^ p * 2 ^ ((k : ℤ) - 1) = 2 ^ n.log2 := by
          rw [← zpow_natCast, ← zpow_natCast, ← zpow_add₀ two_ne_zero]
          congr 1
          omega
        have h4 : (0 : ℚ) < 2 ^ (j + sc) := by positivity
        calc (c : ℚ) * 2 ^ (j + sc) < 2 ^ p * 2 ^ (j + sc) := mul_lt_mul_of_pos_right h1 h4
          _ ≤ 2 ^ p * 2 ^ ((k : ℤ) - 1) := mul_le_mul_of_nonneg_left h2 (by positivity)
          _ = 2 ^ n.log2 := h3
      have hleQ : (2 : ℚ) ^ n.log2 ≤ n := by exact_mod_cast hle
      have hN : |(roundAt k n : ℚ) - n| ≤ n - 2 ^ n.log2 := by
        have h := hL.1
        rw [abs_of_nonpos (by omega : (2 : ℤ) ^ n.log2 - n ≤ 0)] at h
        have h' : |(roundAt k n : ℚ) - n| ≤ -(2 ^ n.log2 - n) := by exact_mod_cast h
        linarith
      have hX : n - 2 ^ n.log2 < |(c : ℚ) * 2 ^ (j + sc) - n| := by
        rw [abs_of_neg (by linarith)]
        linarith
      exact ⟨by linarith, fun h => absurd h (by intro h; linarith)⟩
  refine ⟨div_le_div_of_nonneg_right hmain.1 hS.le, fun h => ?_⟩
  rcases hmain.2 ((div_left_inj' hS.ne').mp h) with h | h
  · exact .inl (by rw [h])
  · exact .inr ⟨hn, h⟩

/-- The range the converter's values stay in. -/
def InRange (v : Exact) : Prop := v.scale ≤ 100 ∧ v.num.natAbs < 2 ^ 100

theorem rne_natAbs (f : FpFmt) (v : Exact) : (rne f v).num.natAbs = roundSig (precision f) v.num.natAbs := by
  by_cases hv : v.num = 0
  · simp [rne, hv]
  · simp [rne, Int.natAbs_mul, Int.natAbs_sign_of_ne_zero hv]

theorem roundSig_pos {p n : ℕ} (hp : 1 ≤ p) (hn : n ≠ 0) : roundSig p n ≠ 0 := by
  by_cases h : n < 2 ^ p
  · rwa [roundSig_of_lt h]
  · obtain ⟨-, -, -, -, hlo, -⟩ := roundSig_spec hp (Nat.not_lt.mp h)
    have := Nat.two_pow_pos n.log2
    omega

theorem one_le_precision (f : FpFmt) : 1 ≤ precision f := by
  cases f <;> decide

/-- The binade of a rounded number of more than `p` bits: its own, or the next power of two exactly. -/
theorem log2_roundSig {p n : ℕ} (hp : 1 ≤ p) (h : 2 ^ p ≤ n) :
    (roundSig p n).log2 = n.log2 ∨ roundSig p n = 2 ^ (n.log2 + 1) := by
  obtain ⟨-, -, -, -, hlo, hhi⟩ := roundSig_spec hp h
  rcases hhi.lt_or_eq with hlt | heq
  · left
    have hN0 : roundSig p n ≠ 0 := by have := Nat.two_pow_pos n.log2; omega
    have h1 := (Nat.le_log2 hN0).mpr hlo
    have h2 := (Nat.log2_lt hN0).mpr hlt
    omega
  · exact .inr heq

/-- A rounded value in range is a value of the format. -/
theorem rne_representable {f : FpFmt} {v : Exact} (h : InRange v) : Representable f (rne f v) := by
  by_cases hv : v.num = 0
  · left
    simp [rne, hv]
  right
  have hn0 : v.num.natAbs ≠ 0 := by simpa using hv
  have hp := one_le_precision f
  have hlogn : v.num.natAbs.log2 < 100 := (Nat.log2_lt hn0).mpr h.2
  have hbias : 127 ≤ expBias f ∧ expBias f + 128 ≤ expOnes f := by cases f <;> decide
  have hsc := h.1
  have hscale : (rne f v).scale = v.scale := rfl
  rw [rne_natAbs, hscale]
  by_cases hn : v.num.natAbs < 2 ^ precision f
  · have := (Nat.log2_lt hn0).mpr hn
    rw [roundSig_of_lt hn, show v.num.natAbs.log2 + 1 - precision f = 0 by omega]
    exact ⟨one_dvd _, by omega, by omega⟩
  · have hn := Nat.not_lt.mp hn
    obtain ⟨k, hk, -, hdvd, -, -⟩ := roundSig_spec hp hn
    rcases log2_roundSig hp hn with hl | hl
    · rw [hl, show v.num.natAbs.log2 + 1 - precision f = k by omega]
      exact ⟨hdvd, by omega, by omega⟩
    · rw [hl, Nat.log2_two_pow]
      exact ⟨pow_dvd_pow 2 (by omega), by omega, by omega⟩

/-- A rounded number that is even at its spacing has an even fraction field. -/
theorem fraction_even {f : FpFmt} {v : Exact} (hR : Representable f (rne f v)) (hn : 2 ^ precision f ≤ v.num.natAbs)
    (he : roundSig (precision f) v.num.natAbs / 2 ^ (v.num.natAbs.log2 + 1 - precision f) % 2 = 0) :
    fraction f (rne f v) % 2 = 0 := by
  have hp := one_le_precision f
  have hn0 : v.num.natAbs ≠ 0 := by have := Nat.two_pow_pos (precision f); omega
  have hnum : (rne f v).num ≠ 0 := by
    rw [← Int.natAbs_ne_zero, rne_natAbs]
    exact roundSig_pos hp hn0
  obtain ⟨hsig, -⟩ := fraction_add hnum (hR.resolve_left hnum).1
  obtain ⟨k, hk, -, -, -, -⟩ := roundSig_spec hp hn
  rw [show v.num.natAbs.log2 + 1 - precision f = k by omega] at he
  have hF : 2 ^ fracBits f % 2 = 0 := by cases f <;> decide
  rw [rne_natAbs] at hsig
  rcases log2_roundSig hp hn with hl | hl
  · rw [hl, show v.num.natAbs.log2 = k + fracBits f by rw [precision] at hk; omega, pow_add, ← mul_assoc] at hsig
    have hN := Nat.eq_of_mul_eq_mul_right (Nat.two_pow_pos _) hsig
    rw [← hN, Nat.mul_div_cancel _ (Nat.two_pow_pos k)] at he
    omega
  · rw [hl, Nat.log2_two_pow, mul_comm (2 ^ (v.num.natAbs.log2 + 1))] at hsig
    have := Nat.eq_of_mul_eq_mul_right (Nat.two_pow_pos _) hsig
    omega

/-- `resOfFloat f (rne f v)` is the value of `v` rounded to the format by roundTiesToEven (43_convert.md R141). -/
theorem rne_isRounded {f : FpFmt} {v : Exact} (h : InRange v) : IsRounded f v.toRat (resOfFloat f (rne f v)) := by
  have hR := rne_representable (f := f) h
  obtain ⟨hval, hfin, -, -, hfrac⟩ := resOfFloat_spec hR
  refine ⟨hfin, fun w _ => ?_⟩
  obtain ⟨c, j, hc, hw⟩ := floatValue_form f w
  have htie : 2 ^ precision f ≤ v.num.natAbs →
      roundSig (precision f) v.num.natAbs / 2 ^ (v.num.natAbs.log2 + 1 - precision f) % 2 = 0 →
      floatFrac f (resOfFloat f (rne f v)) % 2 = 0 := fun hn he => by
    have hn0 : v.num.natAbs ≠ 0 := by have := Nat.two_pow_pos (precision f); omega
    have hnum : (rne f v).num ≠ 0 := by
      rw [← Int.natAbs_ne_zero, rne_natAbs]
      exact roundSig_pos (one_le_precision f) hn0
    rw [(hfrac hnum).2]
    exact fraction_even hR hn he
  rw [hval, hw]
  rcases lt_or_ge v.num 0 with hneg | hpos
  · have hq : v.toRat = -((v.num.natAbs : ℚ) / 2 ^ v.scale) := by
      rw [Exact.toRat, Nat.cast_natAbs, abs_of_neg hneg]
      push_cast
      ring
    have hN : (rne f v).toRat = -((roundSig (precision f) v.num.natAbs : ℚ) / 2 ^ v.scale) := by
      simp only [Exact.toRat, rne, Int.sign_eq_neg_one_of_neg hneg]
      push_cast
      ring
    have hnear := roundSig_nearest (n := v.num.natAbs) (one_le_precision f) v.scale (c := -c) (by rwa [abs_neg]) j
    have hflip (x : ℚ) : |x - v.toRat| = |-x - v.num.natAbs / 2 ^ v.scale| := by
      rw [hq, ← abs_neg]
      congr 1
      ring
    have hflipc : -((c : ℚ) * 2 ^ j) = ((-c : ℤ) : ℚ) * 2 ^ j := by
      push_cast
      ring
    rw [hflip, hflip, hN, neg_neg, hflipc]
    refine ⟨hnear.1, fun ht => ?_⟩
    rcases hnear.2 ht with h | ⟨h1, h2⟩
    · left
      rw [← hflipc] at h
      linarith
    · exact .inr (htie h1 h2)
  · have hq : v.toRat = (v.num.natAbs : ℚ) / 2 ^ v.scale := by
      rw [Exact.toRat, Nat.cast_natAbs, abs_of_nonneg hpos]
    have hN : (rne f v).toRat = (roundSig (precision f) v.num.natAbs : ℚ) / 2 ^ v.scale := by
      rcases hpos.lt_or_eq with hp | h0
      · simp [Exact.toRat, rne, Int.sign_eq_one_of_pos hp]
      · simp [Exact.toRat, rne, ← h0]
    have hnear := roundSig_nearest (n := v.num.natAbs) (one_le_precision f) v.scale hc j
    rw [hq, hN]
    refine ⟨hnear.1, fun ht => ?_⟩
    rcases hnear.2 ht with h | ⟨h1, h2⟩
    · exact .inl h
    · exact .inr (htie h1 h2)

/-- A value of no more bits than the format has is not rounded. -/
theorem rne_of_lt {f : FpFmt} {v : Exact} (h : v.num.natAbs < 2 ^ precision f) : rne f v = v := by
  obtain ⟨n, sc⟩ := v
  simp only [rne, roundSig_of_lt h, Int.sign_mul_natAbs]

theorem two_pow_24_le (f : FpFmt) : 2 ^ 24 ≤ 2 ^ precision f :=
  Nat.pow_le_pow_right (by omega) (by cases f <;> decide)

/-- The numerator `rne` leaves. -/
def roundInt (f : FpFmt) (n : ℤ) : ℤ := n.sign * roundSig (precision f) n.natAbs

theorem rne_eq (f : FpFmt) (n : ℤ) (k : ℕ) : rne f ⟨n, k⟩ = ⟨roundInt f n, k⟩ := rfl

/-- Rounding is monotone. -/
theorem roundInt_mono (f : FpFmt) {a b : ℤ} (h : a ≤ b) : roundInt f a ≤ roundInt f b := by
  have hp := one_le_precision f
  unfold roundInt
  rcases lt_trichotomy a 0 with ha | ha | ha
  · rw [Int.sign_eq_neg_one_of_neg ha]
    rcases lt_trichotomy b 0 with hb | hb | hb
    · have := roundSig_mono hp (show b.natAbs ≤ a.natAbs by omega)
      rw [Int.sign_eq_neg_one_of_neg hb]
      omega
    · subst hb
      simp
    · rw [Int.sign_eq_one_of_pos hb]
      omega
  · subst ha
    rcases h.lt_or_eq with h | h
    · rw [Int.sign_eq_one_of_pos h]
      simp
    · subst h
      simp
  · have := roundSig_mono hp (show a.natAbs ≤ b.natAbs by omega)
    rw [Int.sign_eq_one_of_pos ha, Int.sign_eq_one_of_pos (by omega)]
    omega

/-- Of the humidity function's operations only the last rounds. -/
theorem humidityPercent_eq (f : FpFmt) {h : ℕ} (hh : h < 2 ^ 20) :
    humidityPercent f h = ⟨roundInt f (h * 100), 20⟩ := by
  have hp := two_pow_24_le f
  have h1 : rne f (exactOfNat h) = exactOfNat h := rne_of_lt (by simp [exactOfNat]; omega)
  have h2 : rne f ((exactOfNat h).divPow2 20) = (exactOfNat h).divPow2 20 :=
    rne_of_lt (by simp [exactOfNat, Exact.divPow2]; omega)
  simp only [humidityPercent, h1, h2]
  rfl

/-- Of the temperature function's operations only the last two round. -/
theorem temperatureCelsius_eq (f : FpFmt) {t : ℕ} (ht : t < 2 ^ 20) :
    temperatureCelsius f t = ⟨roundInt f (roundInt f (t * 200) - 50 * 2 ^ 20), 20⟩ := by
  have hp := two_pow_24_le f
  have h1 : rne f ((exactOfNat t).divPow2 20) = (exactOfNat t).divPow2 20 :=
    rne_of_lt (by simp [exactOfNat, Exact.divPow2]; omega)
  simp only [temperatureCelsius, h1]
  rfl

end Sys2Proof.Machine
end

