-- ==== Sys2Proof/Laws/Operands.lean ====
section
/-! SUPPORT. The operand forms: the fields as numbers and as concatenations of bytes, and results in RES. -/
namespace Sys2Proof.Machine

/-- A concatenation as a number. -/
theorem toNat_append_eq {n m : Nat} (a : BitVec n) (b : BitVec m) : (a ++ b).toNat = a.toNat * 2 ^ m + b.toNat := by
  rw [BitVec.toNat_append, ← Nat.shiftLeft_add_eq_or_of_lt b.isLt, Nat.shiftLeft_eq]

/-- A shifted number OR one that fits below it is their sum. -/
theorem shiftLeft_or_eq {a b k : Nat} (h : b < 2 ^ k) : a <<< k ||| b = a * 2 ^ k + b := by
  rw [← Nat.shiftLeft_add_eq_or_of_lt h, Nat.shiftLeft_eq]

theorem resOfByte_toNat (b : Byte) : (resOfByte b).toNat = b.toNat := by
  have := b.isLt
  rw [resOfByte, BitVec.toNat_setWidth]
  omega

theorem resOfByte_eq_append (b : Byte) : resOfByte b = (0#56) ++ b := by
  apply BitVec.eq_of_toNat_eq
  rw [resOfByte_toNat, toNat_append_eq]
  simp

theorem resOfByte_injective {b b' : Byte} (h : resOfByte b = resOfByte b') : b = b' := by
  apply BitVec.eq_of_toNat_eq
  rw [← resOfByte_toNat, ← resOfByte_toNat, h]

theorem resOfBool_eq_one {c : Bool} : resOfBool c = 1 ↔ c = true := by
  cases c <;> decide

/-- The humidity field as a number (42_frame.md R120). -/
theorem humBits_toNat (m : Memory) :
    (humBits m).toNat = (m.read 1).toNat * 4096 + (m.read 2).toNat * 16 + (m.read 3).toNat / 16 := by
  have h1 := (m.read 1).isLt
  have h2 := (m.read 2).isLt
  have h3 := (m.read 3).isLt
  have e1 : (zext32 (m.read 1) <<< 12).toNat = (m.read 1).toNat <<< 12 := by
    rw [BitVec.toNat_shiftLeft, zext32, BitVec.toNat_setWidth, Nat.shiftLeft_eq, Nat.shiftLeft_eq]
    omega
  have e2 : (zext32 (m.read 2) <<< 4).toNat = (m.read 2).toNat <<< 4 := by
    rw [BitVec.toNat_shiftLeft, zext32, BitVec.toNat_setWidth, Nat.shiftLeft_eq, Nat.shiftLeft_eq]
    omega
  have e3 : (zext32 (m.read 3) >>> 4).toNat = (m.read 3).toNat / 16 := by
    rw [BitVec.toNat_ushiftRight, zext32, BitVec.toNat_setWidth, Nat.shiftRight_eq_div_pow]
    omega
  rw [humBits, BitVec.toNat_or, BitVec.toNat_or, e1, e2, e3, Nat.or_assoc,
    shiftLeft_or_eq (by omega : (m.read 3).toNat / 16 < 2 ^ 4), shiftLeft_or_eq (by omega)]
  omega

/-- The temperature field as a number (42_frame.md R121). -/
theorem tempBits_toNat (m : Memory) :
    (tempBits m).toNat = (m.read 3).toNat % 16 * 65536 + (m.read 4).toNat * 256 + (m.read 5).toNat := by
  have h3 := (m.read 3).isLt
  have h4 := (m.read 4).isLt
  have h5 := (m.read 5).isLt
  have e3 : ((zext32 (m.read 3) &&& 0x0F) <<< 16).toNat = ((m.read 3).toNat % 16) <<< 16 := by
    have hand : (zext32 (m.read 3) &&& 0x0F).toNat = (m.read 3).toNat % 16 := by
      rw [BitVec.toNat_and, zext32, BitVec.toNat_setWidth]
      show (m.read 3).toNat % 2 ^ 32 &&& (2 ^ 4 - 1) = _
      rw [Nat.and_two_pow_sub_one_eq_mod]
      omega
    rw [BitVec.toNat_shiftLeft, hand, Nat.shiftLeft_eq]
    omega
  have e4 : (zext32 (m.read 4) <<< 8).toNat = (m.read 4).toNat <<< 8 := by
    rw [BitVec.toNat_shiftLeft, zext32, BitVec.toNat_setWidth, Nat.shiftLeft_eq, Nat.shiftLeft_eq]
    omega
  have e5 : (zext32 (m.read 5)).toNat = (m.read 5).toNat := by
    rw [zext32, BitVec.toNat_setWidth]
    omega
  rw [tempBits, BitVec.toNat_or, BitVec.toNat_or, e3, e4, e5, Nat.or_assoc, shiftLeft_or_eq h5,
    shiftLeft_or_eq (by omega)]
  omega

/-- Both fields are 20-bit numbers. -/
theorem humBits_lt (m : Memory) : (humBits m).toNat < 2 ^ 20 := by
  have h1 := (m.read 1).isLt
  have h2 := (m.read 2).isLt
  have h3 := (m.read 3).isLt
  rw [humBits_toNat]
  omega

theorem tempBits_lt (m : Memory) : (tempBits m).toNat < 2 ^ 20 := by
  have h3 := (m.read 3).isLt
  have h4 := (m.read 4).isLt
  have h5 := (m.read 5).isLt
  rw [tempBits_toNat]
  omega

theorem resOfField_toNat (v : BitVec 32) : (resOfField v).toNat = v.toNat := by
  have := v.isLt
  rw [resOfField, BitVec.toNat_setWidth]
  omega

end Sys2Proof.Machine
end

