-- ==== Sys2Proof/Laws/PerInstr.lean ====
section
/-! SUPPORT. Facts about the commands as syntax, one lemma per command. -/
namespace Sys2Proof.Laws.IgnoredBits
open Sys2Proof Sys2Proof.Machine

/-- The encoder writes the bits a command does not use as zero (30_encoding.md R64). -/
def Statement (i : Instr) : Prop := encode i &&& usedBits i = encode i

theorem nop : Statement .nop := rfl

theorem crcInit : Statement .crcInit := rfl

theorem crcStep (data : Byte) : Statement (.crcStep data) := by
  unfold Statement
  revert data
  decide

theorem crcRead : Statement .crcRead := rfl

theorem crcFrame : Statement .crcFrame := rfl

theorem crcCheck : Statement .crcCheck := rfl

theorem bsrRead : Statement .bsrRead := rfl

theorem cfgRead : Statement .cfgRead := rfl

theorem frameClear : Statement .frameClear := rfl

theorem frameWrite (idx : Idx) (data : Byte) : Statement (.frameWrite idx data) := BitVec.and_allOnes

theorem frameLoad : Statement .frameLoad := rfl

theorem frameRead (idx : Idx) : Statement (.frameRead idx) := by
  unfold Statement
  revert idx
  decide

theorem humBits : Statement .humBits := rfl

theorem tempBits : Statement .tempBits := rfl

theorem humPct : Statement .humPct := rfl

theorem tempC : Statement .tempC := rfl

theorem statLoad (data : Byte) : Statement (.statLoad data) := by
  unfold Statement
  revert data
  decide

theorem statFromFrame : Statement .statFromFrame := rfl

theorem statRead : Statement .statRead := rfl

theorem isBusy : Statement .isBusy := rfl

theorem isCal : Statement .isCal := rfl

theorem isNormal : Statement .isNormal := rfl

theorem isCyclic : Statement .isCyclic := rfl

theorem isCommand : Statement .isCommand := rfl

end Sys2Proof.Laws.IgnoredBits
end

