-- ==== Sys2Proof/Tests/Slice0.lean ====
section
/-! SUPPORT. The model's own tests: one step on a small state each, expected values from 95_test_vectors.md or the rule
named; and for every obligation with hypotheses a concrete state and operands that meet them. -/
namespace Sys2Proof.Tests
open Sys2Proof Sys2Proof.Machine

/-! Helpers -/

/-- A frame of seven bytes in wire order. -/
def frameOf (bs : List Byte) : Memory := Memory.ofBytesFrom 0 bs

/-- DOC's frame of W1. -/
def frameW1 : Memory := frameOf [0x18, 0x80, 0x2F, 0x25, 0xD2, 0x6A, 0x13]

/-- DOC's frame of W2. -/
def frameW2 : Memory := frameOf [0x18, 0x7E, 0x51, 0x65, 0xD4, 0xA0, 0xDA]

/-- W2's frame as the frame input (20_memory.md R42). -/
def inputW2 : FrameIn := 0x187E5165D4A0DA

/-- A state in mid-run: every register away from its reset value, W2's frame, W1's frame at the input. -/
def mid (f : FpFmt) : State :=
  { crc := 0x36, frame := frameW2, stat := 0x3C, res := 0x13, bsr := 0x00, fpFmt := f, frameIn := 0x18802F25D26A13,
    pending := [] }

/-- The same with the host presenting a word next, and after it a NOP. -/
def midAt (w : CmdWord) : State := { mid .binary32 with pending := [.command w inputW2, .command 0x0000 0] }

/-- The same, an error recorded before: BAD_INDEX on FRAME_WRITE. -/
def errAt (w : CmdWord) : State := { midAt w with bsr := 0x4D }

/-- The same, the host about to reset the block. -/
def errThenReset : State := { mid .binary32 with bsr := 0x4D, pending := [.reset, .command 0x0000 0] }

/-- A field of the state a command leaves. -/
def after {α : Type} (i : Instr) (s : State) (get : State → α) : Option α :=
  match exec i s with
  | .next t => some (get t)
  | .fault _ => none
  | .refused _ => none

/-- A field of the state a step leaves. -/
def afterStep {α : Type} (s : State) (get : State → α) : Option α :=
  match step s with
  | .next t => some (get t)
  | .fault _ => none
  | .refused _ => none

/-- The seven frame bytes. -/
def bytesOf (m : Memory) : List Byte := [m.read 0, m.read 1, m.read 2, m.read 3, m.read 4, m.read 5, m.read 6]

/-- `RES` after a command on a state with this frame. -/
def resOn (i : Instr) (f : FpFmt) (bs : List Byte) : Option ResWord := after i { mid f with frame := frameOf bs } State.res

/-- What the five decode commands give for a status byte, in the order of V3. -/
def decodes (st : Byte) : List (Option ResWord) :=
  [Instr.isBusy, .isCal, .isNormal, .isCyclic, .isCommand].map fun i => after i { mid .binary32 with stat := st } State.res

/-! Decoding (V1): words written out from the fields of 30_encoding.md R63, every family -/

theorem test_decode_nop : decode 0b0000000000000000#16 = .ok .nop := by decide
theorem test_decode_crcInit_ignored_bits : decode 0b0000111111111111#16 = .ok .crcInit := by decide
theorem test_decode_crcStep : decode 0b0001011100011000#16 = .ok (.crcStep 0x18) := by decide
theorem test_decode_crcRead : decode 0b0001111100000000#16 = .ok .crcRead := by decide
theorem test_decode_crcFrame : decode 0b0010000000000000#16 = .ok .crcFrame := by decide
theorem test_decode_crcCheck : decode 0b0010100000000000#16 = .ok .crcCheck := by decide
theorem test_decode_bsrRead : decode 0b0011000000000000#16 = .ok .bsrRead := by decide
theorem test_decode_cfgRead : decode 0b0011100000000000#16 = .ok .cfgRead := by decide
theorem test_decode_frameClear : decode 0b0100000000000000#16 = .ok .frameClear := by decide
theorem test_decode_frameWrite : decode 0b0100101101100101#16 = .ok (.frameWrite 3 0x65) := by decide
theorem test_decode_frameLoad : decode 0b0101000000000000#16 = .ok .frameLoad := by decide
theorem test_decode_frameRead : decode 0b0101111100000000#16 = .ok (.frameRead 7) := by decide
theorem test_decode_humBits : decode 0b0110000000000000#16 = .ok .humBits := by decide
theorem test_decode_tempBits : decode 0b0110100000000000#16 = .ok .tempBits := by decide
theorem test_decode_humPct : decode 0b0111000000000000#16 = .ok .humPct := by decide
theorem test_decode_tempC : decode 0b0111100000000000#16 = .ok .tempC := by decide
theorem test_decode_statLoad : decode 0b1000000000011100#16 = .ok (.statLoad 0x1C) := by decide
theorem test_decode_statFromFrame : decode 0b1000100000000000#16 = .ok .statFromFrame := by decide
theorem test_decode_statRead : decode 0b1001000000000000#16 = .ok .statRead := by decide
theorem test_decode_isBusy : decode 0b1001100000000000#16 = .ok .isBusy := by decide
theorem test_decode_isCal : decode 0b1010000000000000#16 = .ok .isCal := by decide
theorem test_decode_isNormal : decode 0b1010100000000000#16 = .ok .isNormal := by decide
theorem test_decode_isCyclic : decode 0b1011000000000000#16 = .ok .isCyclic := by decide
theorem test_decode_isCommand : decode 0b1011100000000000#16 = .ok .isCommand := by decide
theorem test_decode_lowest_reserved : decode 0xC000 = .error (.reservedOp 0x18) := by decide
theorem test_decode_highest_reserved : decode 0xFFFF = .error (.reservedOp 0x1F) := by decide

theorem test_decodeTableWord : decodeTableWord 16 0x4B65 = some (.frameWrite 3 0x65) := by decide
theorem test_decodeTableWord_reserved : decodeTableWord 16 0xC000 = none := by decide

/-! WellFormed smoke: an ill-formed term for each check -/

theorem test_wf_frameWrite_6 : (Instr.frameWrite 6 0x9C).wellFormed = true := by decide
theorem test_wf_refuses_frameWrite_7 : (Instr.frameWrite 7 0x00).wellFormed = false := by decide
theorem test_wf_refuses_frameRead_7 : (Instr.frameRead 7).wellFormed = false := by decide
theorem test_asm_frameWrite_7 : assemble ⟨"FRAME_WRITE", [.dec 7, .hex 0]⟩ = .ok (.frameWrite 7 0) := by decide
theorem test_asm_hex_data : assemble ⟨"CRC_STEP", [.hex 0x18]⟩ = .ok (.crcStep 0x18) ∧
    assemble ⟨"STAT_LOAD", [.hex 0x1C]⟩ = .ok (.statLoad 0x1C) ∧
    assemble ⟨"FRAME_WRITE", [.dec 3, .hex 0x65]⟩ = .ok (.frameWrite 3 0x65) := by decide
theorem test_asm_refuses_idx_8 :
    (AsmLine.mk "FRAME_READ" [.dec 8]).wellFormed = false ∧ assemble ⟨"FRAME_READ", [.dec 8]⟩ = .error .idxOutOfRange := by
  decide
theorem test_asm_refuses_hex_idx :
    (AsmLine.mk "FRAME_READ" [.hex 3]).wellFormed = false ∧ assemble ⟨"FRAME_READ", [.hex 3]⟩ = .error .idxOutOfRange := by
  decide
theorem test_asm_refuses_data_256 :
    (AsmLine.mk "CRC_STEP" [.dec 256]).wellFormed = false ∧
    assemble ⟨"CRC_STEP", [.dec 256]⟩ = .error .dataOutOfRange := by
  decide
theorem test_asm_refuses_frameWrite_data :
    (AsmLine.mk "FRAME_WRITE" [.dec 0, .hex 256]).wellFormed = false ∧
    assemble ⟨"FRAME_WRITE", [.dec 0, .hex 256]⟩ = .error .dataOutOfRange := by
  decide
theorem test_asm_refuses_operand_count :
    (AsmLine.mk "NOP" [.dec 0]).wellFormed = false ∧ assemble ⟨"NOP", [.dec 0]⟩ = .error .wrongOperands ∧
    (AsmLine.mk "STAT_LOAD" []).wellFormed = false ∧ assemble ⟨"STAT_LOAD", []⟩ = .error .wrongOperands := by
  decide
theorem test_asm_refuses_unknown :
    (AsmLine.mk "HLT" []).wellFormed = false ∧ assemble ⟨"HLT", []⟩ = .error .unknownMnemonic := by
  decide

/-! CRC-8 generator (V2, P2) -/

theorem test_table_entries : [0x00, 0x01, 0x80, 0xE7, 0xFF].map tableAt = [0x00, 0x31, 0x7A, 0x56, 0xAC] := by decide
theorem test_crc_check_value : crc8 [0x31, 0x32, 0x33, 0x34, 0x35, 0x36, 0x37, 0x38, 0x39] = 0xF7 := by decide
theorem test_crc_empty : crc8 [] = 0xFF := by decide
theorem test_crcInit : after .crcInit { mid .binary32 with crc := 0x13 } State.crc = some 0xFF := by decide
theorem test_crcStep : after (.crcStep 0x2F) { mid .binary32 with crc := 0xA2 } (fun t => (t.crc, t.res)) = some (0x36, 0x36) := by
  decide
theorem test_crcRead : after .crcRead (mid .binary32) State.res = some 0x36 := by decide
theorem test_crcFrame : after .crcFrame (mid .binary32) (fun t => (t.res, t.crc)) = some (0xDA, 0x36) := by decide
theorem test_crcCheck_valid : resOn .crcCheck .binary32 [0x18, 0x80, 0x2F, 0x25, 0xD2, 0x6A, 0x13] = some 1 := by decide
theorem test_crcCheck_invalid : resOn .crcCheck .binary32 [0x18, 0x7E, 0x51, 0x65, 0xD4, 0xA0, 0xDB] = some 0 := by decide

/-! Status decoder (V3) -/

theorem test_status_17 : decodes 0x17 = [some 0, some 0, some 1, some 0, some 0] := by decide
theorem test_status_3C : decodes 0x3C = [some 0, some 1, some 0, some 1, some 0] := by decide
theorem test_status_60 : decodes 0x60 = [some 0, some 0, some 0, some 0, some 1] := by decide
theorem test_status_F7 : decodes 0xF7 = [some 1, some 0, some 0, some 0, some 1] := by decide
theorem test_statLoad : after (.statLoad 0x1C) (mid .binary32) (fun t => (t.stat, t.res)) = some (0x1C, 0x13) := by decide
theorem test_statFromFrame :
    after .statFromFrame { mid .binary32 with frame := frameOf [0x98] } State.stat = some 0x98 := by decide
theorem test_statRead : after .statRead { mid .binary32 with stat := 0xE8 } State.res = some 0xE8 := by decide

/-! Frame buffer and unpacker (V4) -/

theorem test_frameLoad :
    after .frameLoad { mid .binary32 with frameIn := inputW2 } (fun t => bytesOf t.frame) =
      some [0x18, 0x7E, 0x51, 0x65, 0xD4, 0xA0, 0xDA] := by decide
theorem test_frameLoad_last_byte :
    after .frameLoad { mid .binary32 with frameIn := 0x00000000000001 } State.frame = some [(6, 0x01)] := by decide
theorem test_frameClear : after .frameClear (mid .binary32) (fun t => (t.frame, t.stat, t.crc, t.res)) =
    some ([], 0x3C, 0x36, 0x13) := by decide
theorem test_frameWrite : after (.frameWrite 3 0x64) (mid .binary32) (fun t => (bytesOf t.frame, t.stat)) =
    some ([0x18, 0x7E, 0x51, 0x64, 0xD4, 0xA0, 0xDA], 0x3C) := by decide
theorem test_frameWrite_zero_is_canonical :
    after (.frameWrite 6 0x00) (mid .binary32) (fun t => (t.frame.length, t.frame.wf)) = some (6, true) := by decide
theorem test_frameRead : after (.frameRead 6) (mid .binary32) State.res = some 0xDA := by decide
theorem test_humBits : resOn .humBits .binary32 [0x18, 0x7E, 0x51, 0x75, 0xD4, 0xA0, 0xDA] = some 0x7E517 := by decide
theorem test_humBits_max : resOn .humBits .binary32 [0x1C, 0xFF, 0xFF, 0xF0, 0x00, 0x00, 0xE6] = some 0xFFFFF := by decide
theorem test_tempBits : resOn .tempBits .binary32 [0x18, 0x7E, 0x51, 0x64, 0xD4, 0xA0, 0x9C] = some 0x4D4A0 := by decide
theorem test_tempBits_max : resOn .tempBits .binary32 [0x1C, 0x00, 0x00, 0x0F, 0xFF, 0xFF, 0xC4] = some 0xFFFFF := by decide

/-! Converter (V5) -/

theorem test_humPct_binary32 :
    [0, 1, 0x51EB8, 0x7E516, 0x80000, 0x802F2, 0xFFFFF].map (fun h => resOfFloat .binary32 (humidityPercent .binary32 h)) =
      [0x00000000, 0x38C80000, 0x41FFFFF0, 0x42455F26, 0x42480000, 0x424849A2, 0x42C7FFF4] := by decide
theorem test_humPct_binary64 :
    [0, 1, 0x51EB8, 0x7E516, 0x80000, 0x802F2, 0xFFFFF].map (fun h => resOfFloat .binary64 (humidityPercent .binary64 h)) =
      [0, 0x3F19000000000000, 0x403FFFFE00000000, 0x4048ABE4C0000000, 0x4049000000000000, 0x4049093440000000,
       0x4058FFFE70000000] := by decide
theorem test_tempC_binary32 :
    [0, 1, 0x3FFFF, 0x40000, 0x40001, 0x5D4A0, 0xA3D71, 0xFFFFF].map
        (fun t => resOfFloat .binary32 (temperatureCelsius .binary32 t)) =
      [0xC2480000, 0xC247FFCE, 0xB9480000, 0, 0x39480000, 0x41B70E80, 0x429C0008, 0x4315FFF4] := by decide
theorem test_tempC_binary64 :
    [0, 1, 0x3FFFF, 0x40000, 0x40001, 0x5D4A0, 0xA3D71, 0xFFFFF].map
        (fun t => resOfFloat .binary64 (temperatureCelsius .binary64 t)) =
      [0xC049000000000000, 0xC048FFF9C0000000, 0xBF29000000000000, 0, 0x3F29000000000000, 0x4036E1D000000000,
       0x4053800120000000, 0x4062BFFE70000000] := by decide
theorem test_humPct_command : after .humPct (mid .binary64) State.res = some 0x4048ABE4C0000000 := by decide
theorem test_tempC_command : after .tempC (mid .binary32) State.res = some 0x41B70E80 := by decide

/-! System commands and errors (V6, V7, P6), reset, the step -/

theorem test_nop : exec .nop (mid .binary32) = .next (mid .binary32) := rfl
theorem test_bsrRead : after .bsrRead { mid .binary32 with bsr := 0x4D } (fun t => (t.res, t.bsr)) = some (0x4D, 0x4D) := by
  decide
theorem test_cfgRead : (after .cfgRead (mid .binary32) State.res, after .cfgRead (mid .binary64) State.res) =
    (some 0x00, some 0x01) := by decide
theorem test_badIndex_write : afterStep (midAt 0x4F00) (fun t => (t.bsr, t.res, t.frame)) = some (0x4D, 0x13, frameW2) := by
  decide
theorem test_badIndex_read : afterStep (midAt 0x5F00) (fun t => (t.bsr, t.res)) = some (0x5D, 0x13) := by decide
theorem test_illegalOp : [0xC000, 0xFFFF].map (fun w => afterStep (midAt w) State.bsr) = [some 0xC3, some 0xFB] := by decide
theorem test_first_error_capture : afterStep (errAt 0xC000) State.bsr = some 0x4D := by decide
theorem test_after_an_error : afterStep { errAt 0x1018 with crc := 0xFF } (fun t => (t.crc, t.res, t.bsr)) =
    some (0x56, 0x56, 0x4D) := by decide
theorem test_reset_event : afterStep errThenReset (fun t => (t.crc, t.frame, t.stat, t.res, t.bsr, t.fpFmt)) =
    some (0xFF, [], 0x00, 0, 0x00, .binary32) := rfl
theorem test_frameLoad_takes_the_presented_input : afterStep (midAt 0x5000) (fun t => t.frame) = some frameW2 := by decide
theorem test_withFetchWord : afterStep (State.reset.withFetchWord 16 0x1018) (fun t => (t.crc, t.res, t.pending)) =
    some (0x56, 0x56, []) := by decide
theorem test_outputs : (errAt 0).outputs = (0x13, 1) := by decide
theorem test_observe : observe 2 { midAt 0x5F00 with pending := [.command 0x5F00 0, .command 0x1800 0] } =
    [(0x13, 1), (0x36, 1)] := by decide

/-! Witnesses: a concrete state and operands that meet each obligation's hypotheses, at the ends of each clause's range -/

theorem witness_IgnoredBitsChangeNothing :
    decode 0x1718 = .ok (.crcStep 0x18) ∧ (0x1018 : CmdWord) &&& usedBits (.crcStep 0x18) = 0x1718 &&& usedBits (.crcStep 0x18) := by
  decide
theorem witness_EveryWordIsACommandOrReserved :
    0x18 ≤ ((0xC000 : CmdWord).extractLsb' 11 5).toNat ∧ ((0xBFFF : CmdWord).extractLsb' 11 5).toNat < 0x18 ∧
    ((0x4F00 : CmdWord).extractLsb' 11 5 = 0x09 ∧ (0x4F00 : CmdWord).extractLsb' 8 3 = 7) ∧
    ((0x5FFF : CmdWord).extractLsb' 11 5 = 0x0B ∧ (0x5FFF : CmdWord).extractLsb' 8 3 = 7) := by decide
theorem witness_AssemblerTakesRangesExactly :
    (AsmLine.mk "FRAME_WRITE" [.dec 7, .hex 255]).wellFormed = true ∧
    (255 ≤ 255 ∧ AsmNum.hex 255 ∈ [AsmNum.dec 255, AsmNum.hex 255] ∧ 7 ≤ 7) ∧
    (256 > 255 ∧ AsmNum.hex 256 ∈ [AsmNum.dec 256, AsmNum.hex 256]) ∧
    AsmNum.dec 8 ∈ [AsmNum.dec (0 + 8), AsmNum.hex 0] ∧ AsmNum.hex 3 ∈ [AsmNum.dec (3 + 8), AsmNum.hex 3] := by decide
theorem witness_OpDecodesTo : ∀ op : Op, (cmdWord op 7 0xFF).extractLsb' 11 5 = op := by decide

theorem witness_StepRunsTheDecodedCommand :
    (midAt 0x5000).pending = .command 0x5000 inputW2 :: [.command 0x0000 0] ∧ decode 0x5000 = .ok .frameLoad := by decide
theorem witness_StepWithNothingPendingHoldsTheState : (mid .binary32).pending = [] := rfl
theorem witness_ResetEventRestoresEveryRegister : errThenReset.pending = .reset :: [.command 0x0000 0] := rfl

theorem witness_LegalCommandsCompleteWithoutError :
    (Instr.frameWrite 6 0x01).wellFormed = true ∧ (Instr.frameRead 0).wellFormed = true := by decide
theorem witness_ErrIsSetExactlyByTheTwoErrors :
    ∀ w ∈ [0xC000, 0x4F00, 0x5FFF, 0x4E00, 0xB800], (midAt w).pending = .command w inputW2 :: [.command 0x0000 0] := by
  intro w _
  rfl
theorem witness_AnErrorWritesBsrAndNothingElse :
    ((midAt 0xC000).pending = .command 0xC000 inputW2 :: [.command 0 0] ∧ raisesCode 0xC000 = some 0b01 ∧
      bsrErr (midAt 0xC000).bsr = 0) ∧
    ((errAt 0x5F00).pending = .command 0x5F00 inputW2 :: [.command 0 0] ∧ raisesCode 0x5F00 = some 0b10 ∧
      bsrErr (errAt 0x5F00).bsr = 1) := by decide
theorem witness_OnlyResetClearsBsr :
    (∃ t, step (errAt 0xC000) = .next t ∧ bsrErr (errAt 0xC000).bsr = 1 ∧ t.bsr = 0x4D) ∧
    (∃ t, step errThenReset = .next t ∧ bsrErr errThenReset.bsr = 1 ∧ t.bsr = 0x00) :=
  ⟨⟨_, rfl, rfl, rfl⟩, ⟨_, rfl, rfl, rfl⟩⟩
theorem witness_BsrChangesOnlyByFirstErrorOrReset :
    (∃ t, step (midAt 0x4F00) = .next t ∧ t.bsr ≠ (midAt 0x4F00).bsr) ∧
    (∃ t, step errThenReset = .next t ∧ t.bsr ≠ errThenReset.bsr) :=
  ⟨⟨_, rfl, by decide⟩, ⟨_, rfl, by decide⟩⟩

theorem witness_InvKeptByEveryStep :
    ∀ w ∈ [0x4E00, 0x5000, 0x4F00, 0xFFFF], (midAt w).inv = true ∧ ∃ t, step (midAt w) = .next t := by
  intro w hw
  simp only [List.mem_cons, List.not_mem_nil, or_false] at hw
  rcases hw with rfl | rfl | rfl | rfl <;> exact ⟨by decide, _, rfl⟩
theorem witness_CfgIsHardwired : (∃ t, step errThenReset = .next t) ∧ ∃ t, step (midAt 0x3800) = .next t :=
  ⟨⟨_, rfl⟩, ⟨_, rfl⟩⟩
theorem witness_CommandsWriteOnlyWhatTheMatrixLists :
    (∃ t, exec (.frameWrite 6 0x01) (mid .binary32) = .next t ∧ (Instr.frameWrite 6 0x01).wellFormed = true) ∧
    (∃ t, exec (.frameRead 7) (mid .binary32) = .next t ∧ (Instr.frameRead 7).wellFormed = false) :=
  ⟨⟨_, rfl, by decide⟩, ⟨_, rfl, by decide⟩⟩
theorem witness_ResultsDependOnlyOnWhatTheMatrixLists :
    ∃ t t', Instr.wellFormed .humPct = true ∧
      AgreeOn (instrReads .humPct) (mid .binary32) { mid .binary32 with crc := 0x00, frame := frameOf [0, 0x7E, 0x51, 0x65] } ∧
      exec .humPct (mid .binary32) = .next t ∧
      exec .humPct { mid .binary32 with crc := 0x00, frame := frameOf [0, 0x7E, 0x51, 0x65] } = .next t' :=
  ⟨_, _, by decide, by unfold AgreeOn; decide, rfl, rfl⟩
theorem witness_FrameInputIsSampledOnlyByFrameLoad :
    decode 0x6000 ≠ .ok .frameLoad ∧
    ∃ t t', exec .frameLoad (mid .binary32) = .next t ∧ exec .frameLoad { mid .binary32 with crc := 0 } = .next t' ∧
      ∀ a < 7, t.frame.read a = t'.frame.read a :=
  ⟨by decide, _, _, rfl, rfl, fun _ _ => rfl⟩
theorem witness_RepeatingACommandChangesNothing :
    (∀ d, Instr.frameWrite 6 0x9C ≠ .crcStep d) ∧ ∃ t, exec (.frameWrite 6 0x9C) (mid .binary32) = .next t :=
  ⟨fun _ => Instr.noConfusion, _, rfl⟩
theorem witness_ReadCommandsObserveAllState :
    (mid .binary32).frame.wf = true ∧ (midAt 0).frame.wf = true ∧ (mid .binary32).res = (midAt 0).res ∧
    ∀ i ∈ [Instr.crcRead, .statRead, .bsrRead, .cfgRead, .frameRead 0, .frameRead 1, .frameRead 2, .frameRead 3,
        .frameRead 4, .frameRead 5, .frameRead 6],
      ∀ t t', exec i (mid .binary32) = .next t → exec i (midAt 0) = .next t' → t.res = t'.res := by
  refine ⟨by decide, by decide, rfl, fun i hi t t' h h' => ?_⟩
  simp only [List.mem_cons, List.not_mem_nil, or_false] at hi
  rcases hi with rfl | rfl | rfl | rfl | rfl | rfl | rfl | rfl | rfl | rfl | rfl <;> cases h <;> cases h' <;> rfl

theorem witness_CfgReadReportsTheFormat : (mid .binary32).fpFmt = .binary32 ∧ (mid .binary64).fpFmt = .binary64 := ⟨rfl, rfl⟩
theorem witness_CrcCheckComparesWithByteSix :
    [0, 1, 2, 3, 4, 5].foldl (fun c i => tableAt (c ^^^ frameW2.read i)) 0xFF = frameW2.read 6 ∧
    [0, 1, 2, 3, 4, 5].foldl (fun c i => tableAt (c ^^^ (Memory.zeros.read i))) 0xFF ≠ Memory.zeros.read 6 := by decide
theorem witness_CrcOfXorIsXorOfCrcs : [0x18#8, 0x7E#8].length = [0x01#8, 0x31#8].length := rfl
theorem witness_CrcBytesStreamsTheCrc :
    (∃ s : State, s.pending = commandsOf (Pseudo.crcBytes [0x18, 0x80]).expand inputW2 ++ [.reset]) ∧
    (∃ s : State, s.pending = commandsOf (Pseudo.crcBytes []).expand inputW2 ++ []) :=
  ⟨⟨{ mid .binary32 with pending := [.command 0x0800 inputW2, .command 0x1018 inputW2, .command 0x1080 inputW2, .reset] }, by decide⟩,
   ⟨{ mid .binary32 with pending := [.command 0x0800 inputW2] }, by decide⟩⟩
theorem witness_ValidFrameHasZeroResidue :
    ∃ t, exec .crcCheck { mid .binary32 with frame := frameW1 } = .next t ∧ t.res = 1 := ⟨_, rfl, by decide⟩
theorem witness_SingleByteCorruptionIsDetected :
    (3 : Idx) ≠ 7 ∧ (6 : Idx) ≠ 7 ∧ (0x64 : Byte) ≠ (mid .binary32).frame.read 3 ∧ (0xDB : Byte) ≠ (mid .binary32).frame.read 6 ∧
    ∃ t, exec .crcCheck (mid .binary32) = .next t ∧ t.res = 1 :=
  ⟨by decide, by decide, by decide, by decide, _, rfl, by decide⟩

theorem witness_ExactlyOneModeCommandGivesOne :
    ∃ a b c, exec .isNormal (mid .binary32) = .next a ∧ exec .isCyclic (mid .binary32) = .next b ∧
      exec .isCommand (mid .binary32) = .next c := ⟨_, _, _, rfl, rfl, rfl⟩
theorem witness_FrameWriteStoresOneByte :
    (0 : Idx) ≠ 7 ∧ (6 : Idx) ≠ 7 ∧ bsrErr (midAt 0x4F00).bsr = 0 ∧ bsrErr (errAt 0x4F00).bsr = 1 := by decide
theorem witness_FrameReadCopiesOneByte :
    (0 : Idx) ≠ 7 ∧ (6 : Idx) ≠ 7 ∧ bsrErr (midAt 0x5F00).bsr = 0 ∧ bsrErr (errAt 0x5F00).bsr = 1 := by decide
theorem witness_TheTwoFieldsAreTheFortyBits :
    ∃ a b, exec .humBits (mid .binary32) = .next a ∧ exec .tempBits (mid .binary32) = .next b := ⟨_, _, rfl, rfl⟩
theorem witness_FrameSetAndBusyOfFrame :
    (∃ s : State, s.pending = commandsOf (Pseudo.frameSet 0x18 0x7E 0x51 0x65 0xD4 0xA0 0xDA).expand 0 ++ []) ∧
    (∃ s : State, s.pending = commandsOf Pseudo.busyOfFrame.expand 0 ++ []) :=
  ⟨⟨{ mid .binary32 with pending := [.command 0x4818 0, .command 0x497E 0, .command 0x4A51 0, .command 0x4B65 0,
      .command 0x4CD4 0, .command 0x4DA0 0, .command 0x4EDA 0] }, by decide⟩,
   ⟨{ mid .binary32 with pending := [.command 0x8800 0, .command 0x9800 0] }, by decide⟩⟩
theorem witness_TrustedReadingOrderChecksTheFrame :
    ∃ s : State, s.pending = commandsOf [.frameLoad, .statFromFrame, .isBusy, .crcCheck] inputW2 ++ [] :=
  ⟨{ mid .binary32 with pending := [.command 0x5000 inputW2, .command 0x8800 inputW2, .command 0x9800 inputW2,
      .command 0x2800 inputW2] }, by decide⟩

/-- A frame whose temperature field is 0xA3D71, the double-rounding case of 43_convert.md R143. -/
def doubleRounding (f : FpFmt) : State := { mid f with frame := frameOf [0x18, 0x00, 0x00, 0x0A, 0x3D, 0x71, 0x00] }

theorem witness_TempCIsExactOnlyInBinary64 :
    (doubleRounding .binary64).fpFmt = .binary64 ∧ (doubleRounding .binary32).fpFmt = .binary32 ∧
    (tempBits (doubleRounding .binary32).frame).toNat = 0xA3D71 := by decide
theorem witness_HumPctIsThePercentageRoundedOnce : (mid .binary64).fpFmt = .binary64 := rfl
theorem witness_TempCRoundsEachOperation :
    resOn .tempC .binary32 [0x18, 0x00, 0x00, 0x04, 0x00, 0x00, 0x00] = some 0 ∧
    floatSign .binary32 0 = false ∧ floatExp .binary32 0 = 0 := by decide
theorem witness_ConverterResultsAreOrdinaryAndInRange :
    ∃ a b, exec .humPct (mid .binary32) = .next a ∧ exec .tempC (mid .binary32) = .next b := ⟨_, _, rfl, rfl⟩
theorem witness_ConverterIsMonotone :
    ∃ a b c d, (mid .binary32).fpFmt = (doubleRounding .binary32).fpFmt ∧
      (humBits (doubleRounding .binary32).frame).toNat ≤ (humBits (mid .binary32).frame).toNat ∧
      (tempBits (mid .binary32).frame).toNat ≤ (tempBits (doubleRounding .binary32).frame).toNat ∧
      exec .humPct (mid .binary32) = .next a ∧ exec .humPct (doubleRounding .binary32) = .next b ∧
      exec .tempC (mid .binary32) = .next c ∧ exec .tempC (doubleRounding .binary32) = .next d :=
  ⟨_, _, _, _, rfl, by decide, by decide, rfl, rfl, rfl, rfl⟩

theorem witness_ObservationIsResAndErrAfterEachStep :
    0 < 2 ∧ 1 < 2 ∧ ∃ t, step (midAt 0x4F00) = .next t := ⟨by decide, by decide, _, rfl⟩

end Sys2Proof.Tests
end

