-- ==== Sys2Proof/Proofs/Observation.lean ====
section
/-! PROOF. Every step answers a next state; so an observation lists the outputs of the run step by step
(00_scope.md R5, R13). -/
namespace Sys2Proof.Machine

/-- The block never stops, whatever the host presents: no fault and no refusal (60_exceptions.md R172, R174). -/
theorem exists_step_eq_next (s : State) : ∃ t, step s = .next t := by
  cases hp : s.pending with
  | nil => exact ⟨s, step_idle hp⟩
  | cons e rest =>
    cases e with
    | reset => exact ⟨_, step_reset hp⟩
    | command w f =>
      cases hd : decode w with
      | ok i =>
        obtain ⟨t, ht, -⟩ := exec_shape i (s.accept f rest)
        exact ⟨t, (step_command hp hd).trans ht⟩
      | error r =>
        obtain ⟨op⟩ := r
        exact ⟨_, step_reserved hp hd⟩

/-- The output `err` is the ERR field of BSR (10_state.md R25). -/
theorem State.outputs_eq (s : State) : s.outputs = (s.res, bsrErr s.bsr) := rfl

@[simp] theorem observe_zero (s : State) : observe 0 s = [] := rfl

/-- Observing one more step: the outputs after the step, then the rest of the observation. -/
theorem observe_succ {s t : State} (k : Nat) (h : step s = .next t) : observe (k + 1) s = t.outputs :: observe k t := by
  simp [observe, h]

@[simp] theorem length_observe (k : Nat) (s : State) : (observe k s).length = k := by
  induction k generalizing s with
  | zero => rfl
  | succ k ih =>
    obtain ⟨t, ht⟩ := exists_step_eq_next s
    simp [observe_succ k ht, ih]

/-- Entry `i` of an observation is the outputs of the state that the run reaches after `i + 1` steps. -/
theorem observe_getElem?_eq_outputs_of_run {i k : Nat} (hi : i < k) (s : State) :
    ∃ t : State, core.run (i + 1) s = .next t ∧ (observe k s)[i]? = some t.outputs := by
  induction k generalizing i s with
  | zero => exact absurd hi (Nat.not_lt_zero i)
  | succ k ih =>
    obtain ⟨u, hu⟩ := exists_step_eq_next s
    rw [run_succ hu, observe_succ k hu]
    cases i with
    | zero => exact ⟨u, run_zero u, rfl⟩
    | succ j => exact ih (Nat.lt_of_succ_lt_succ hi) u

/-- Settles O59: by induction on the number of steps, each of which has a next state whose outputs head the observation. -/
theorem observationIsResAndErrAfterEachStep : Obligations.ObservationIsResAndErrAfterEachStep := by
  intro k s
  refine ⟨length_observe k s, fun i hi => ?_⟩
  obtain ⟨t, hrun, hobs⟩ := observe_getElem?_eq_outputs_of_run hi s
  exact ⟨t, hrun, hobs.trans (congrArg some t.outputs_eq)⟩

end Sys2Proof.Machine
end

