-- ==== Sys2Proof/Proofs/StepCases.lean ====
section
/-! PROOF. What one step can do, said once: which words the decoder turns away, which commands are not well formed, and
the cases of a step (30_encoding.md R65, R69; 60_exceptions.md R170). -/
namespace Sys2Proof

/-- Every OP below 0x18 is a command (30_encoding.md R63). -/
theorem exists_decode_eq_ok {w : CmdWord} (h : (opField w).toNat < 0x18) : ∃ i, decode w = .ok i := by
  unfold decode
  generalize opField w = op at h
  obtain ⟨⟨n, hn⟩⟩ := op
  change n < 24 at h
  interval_cases n <;> exact ⟨_, rfl⟩

/-- A word is turned away only under its own OP, and only when that OP is reserved. -/
theorem reserved_of_decode_eq_error {w : CmdWord} {op : Op} (h : decode w = .error (.reservedOp op)) :
    op = opField w ∧ 0x18 ≤ op.toNat := by
  by_cases hlt : (opField w).toNat < 0x18
  · obtain ⟨i, hi⟩ := exists_decode_eq_ok hlt
    exact absurd (hi.symm.trans h) nofun
  · have hres : 0x18 ≤ (opField w).toNat := Nat.le_of_not_lt hlt
    obtain rfl : opField w = op := by simpa [decode_reserved hres] using h
    exact ⟨rfl, hres⟩

/-- A word that decodes to FRAME_WRITE has its OP and carries its index. -/
theorem fields_of_decode_eq_frameWrite {w : CmdWord} {idx : Idx} {d : Byte} (h : decode w = .ok (.frameWrite idx d)) :
    opField w = 0x09 ∧ idxField w = idx := by
  unfold decode at h
  split at h <;> cases h
  exact ⟨‹_›, rfl⟩

/-- A word that decodes to FRAME_READ has its OP and carries its index. -/
theorem fields_of_decode_eq_frameRead {w : CmdWord} {idx : Idx} (h : decode w = .ok (.frameRead idx)) :
    opField w = 0x0B ∧ idxField w = idx := by
  unfold decode at h
  split at h <;> cases h
  exact ⟨‹_›, rfl⟩

/-- 7 is the one index that is no frame index (30_encoding.md R61). -/
theorem idx_legal_eq_false_iff : ∀ idx : Idx, Idx.legal idx = false ↔ idx = 7 := by decide

/-- The commands with an illegal index are FRAME_WRITE and FRAME_READ at index 7 (60_exceptions.md R170). -/
theorem wellFormed_eq_false_iff (i : Instr) :
    i.wellFormed = false ↔ (∃ d, i = .frameWrite 7 d) ∨ i = .frameRead 7 := by
  cases i with
  | frameWrite idx d => simp [Instr.wellFormed, idx_legal_eq_false_iff]
  | frameRead idx => simp [Instr.wellFormed, idx_legal_eq_false_iff]
  | nop | crcInit | crcStep _ | crcRead | crcFrame | crcCheck | bsrRead | cfgRead | frameClear | frameLoad | humBits
  | tempBits | humPct | tempC | statLoad _ | statFromFrame | statRead | isBusy | isCal | isNormal | isCyclic
  | isCommand => simp [Instr.wellFormed]

theorem ne_seven_of_legal {idx : Idx} (h : Idx.legal idx = true) : idx ≠ 7 := by
  rintro rfl
  exact absurd h (by decide)

namespace Machine

/-- A command with an illegal index raises BAD_INDEX and does nothing else. -/
theorem exec_of_not_wellFormed {i : Instr} (hi : i.wellFormed = false) (s : State) :
    ∃ op, exec i s = .next (s.raise .badIndex op) := by
  obtain ⟨d, rfl⟩ | rfl := (wellFormed_eq_false_iff i).mp hi
  · exact ⟨_, exec_frameWrite_seven s d⟩
  · exact ⟨_, exec_frameRead_seven s⟩

/-- A command's next state has one of the shapes of `ExecShape`. -/
theorem execShape_of_exec {i : Instr} {s t : State} (h : exec i s = .next t) : ExecShape s t := by
  obtain ⟨u, hu, hshape⟩ := exec_shape i s
  obtain rfl := Host.Outcome.next.inj (hu.symm.trans h)
  exact hshape

/-- What one step can do: hold the state, reset, run a command, or raise ILLEGAL_OP (30_encoding.md R69). -/
inductive StepCase (s : State) : State → Prop where
  | idle (hp : s.pending = []) : StepCase s s
  | reset (rest : List HostEvent) (hp : s.pending = .reset :: rest) :
    StepCase s ((s.accept s.frameIn rest).resetBlock)
  | command {w : CmdWord} {f : FrameIn} {rest : List HostEvent} {i : Instr} {t : State}
    (hp : s.pending = .command w f :: rest) (hd : decode w = .ok i) (he : exec i (s.accept f rest) = .next t) :
    StepCase s t
  | reserved {w : CmdWord} {f : FrameIn} {rest : List HostEvent} (hp : s.pending = .command w f :: rest)
    (hop : 0x18 ≤ (opField w).toNat) : StepCase s ((s.accept f rest).raise .illegalOp (opField w))

/-- Every step is one of these cases. -/
theorem stepCase_of_step {s t : State} (h : step s = .next t) : StepCase s t := by
  cases hp : s.pending with
  | nil =>
    rw [step_idle hp] at h
    cases h
    exact .idle hp
  | cons e rest =>
    cases e with
    | reset =>
      rw [step_reset hp] at h
      cases h
      exact .reset rest hp
    | command w f =>
      cases hd : decode w with
      | ok i => exact .command hp hd ((step_command hp hd).symm.trans h)
      | error r =>
        obtain ⟨op⟩ := r
        rw [step_reserved hp hd] at h
        cases h
        obtain ⟨rfl, hop⟩ := reserved_of_decode_eq_error hd
        exact .reserved hp hop

end Machine
end Sys2Proof
end

