-- ==== Sys2Proof/Proofs/Invariant.lean ====
section
/-! PROOF. The invariant: the frame buffer is canonical and BSR legal, at reset and after every step (10_state.md R22,
R25; 60_exceptions.md R170, R171). -/
namespace Sys2Proof.Machine

theorem State.inv_iff (s : State) : s.inv = true ↔ s.frame.wf = true ∧ bsrLegal s.bsr = true := by
  simp [State.inv]

/-- The invariant does not look at the host's side of the interface. -/
@[simp] theorem State.accept_inv (s : State) (f : FrameIn) (rest : List HostEvent) : (s.accept f rest).inv = s.inv := rfl

/-- Reset establishes the invariant, whatever the state was. -/
@[simp] theorem State.resetBlock_inv (s : State) : s.resetBlock.inv = true := rfl

/-- An ILLEGAL_OP of a reserved OP keeps the invariant. -/
theorem State.inv_raise_illegalOp {s : State} {op : Op} (h : s.inv = true) (hop : 0x18 ≤ op.toNat) :
    (s.raise .illegalOp op).inv = true := by
  obtain ⟨hwf, hbsr⟩ := s.inv_iff.mp h
  exact (State.inv_iff _).mpr ⟨hwf, bsrLegal_raise_illegalOp hbsr hop⟩

/-- Every shape a command's next state can have keeps the invariant: only the frame and BAD_INDEX touch it. -/
theorem ExecShape.inv {s t : State} (h : ExecShape s t) (hs : s.inv = true) : t.inv = true := by
  obtain ⟨hwf, hbsr⟩ := s.inv_iff.mp hs
  cases h with
  | frame m hm => exact (State.inv_iff _).mpr ⟨hm hwf, hbsr⟩
  | badIndex op hop => exact (State.inv_iff _).mpr ⟨hwf, bsrLegal_raise_badIndex hbsr hop⟩
  | same | crc _ | crcRes _ _ | res _ | stat _ => exact hs

/-- Settles O17: by the cases of a step, reset restoring the invariant and every other case keeping it. -/
theorem invKeptByEveryStep : Obligations.InvKeptByEveryStep := by
  intro s t hs h
  cases stepCase_of_step h with
  | idle _ => exact hs
  | reset rest _ => exact State.resetBlock_inv (s.accept s.frameIn rest)
  | command _ _ he => exact (execShape_of_exec he).inv ((s.accept_inv _ _).trans hs)
  | reserved _ hop => exact State.inv_raise_illegalOp ((s.accept_inv _ _).trans hs) hop

/-- Settles O16: the state of reset is a literal. -/
theorem invHoldsAtReset : Obligations.InvHoldsAtReset := rfl

end Sys2Proof.Machine
end

