-- ==== Sys2Proof/Proofs/AccessMatrix.lean ====
section
/-! PROOF. The access matrix of 10_state.md R31: what a command writes (one lemma per update), and that it depends only on
what the command reads (one congruence per result). -/
namespace Sys2Proof.Machine

/-! Its w entries -/

section
variable {acc : Access} {s t : State}

theorem KeptOutside.refl (acc : Access) (s : State) : KeptOutside acc s s :=
  ⟨fun _ => rfl, fun _ _ _ => rfl, fun _ => rfl, fun _ => rfl, fun _ => rfl, rfl, rfl, rfl⟩

/-- An update of a register that the access names keeps everything outside it. -/
theorem KeptOutside.setCrc (h : KeptOutside acc s t) (hacc : acc.crc = true) (v : Byte) :
    KeptOutside acc s (t.setCrc v) := by
  obtain ⟨-, hframe, hstat, hres, hbsr, hfmt, hhost⟩ := h
  exact ⟨by simp [hacc], hframe, hstat, hres, hbsr, hfmt, hhost⟩

theorem KeptOutside.setStat (h : KeptOutside acc s t) (hacc : acc.stat = true) (v : Byte) :
    KeptOutside acc s (t.setStat v) := by
  obtain ⟨hcrc, hframe, -, hres, hbsr, hfmt, hhost⟩ := h
  exact ⟨hcrc, hframe, by simp [hacc], hres, hbsr, hfmt, hhost⟩

theorem KeptOutside.setRes (h : KeptOutside acc s t) (hacc : acc.res = true) (v : ResWord) :
    KeptOutside acc s (t.setRes v) := by
  obtain ⟨hcrc, hframe, hstat, -, hbsr, hfmt, hhost⟩ := h
  exact ⟨hcrc, hframe, hstat, by simp [hacc], hbsr, hfmt, hhost⟩

/-- Raising an error writes BSR only (60_exceptions.md R171). -/
theorem KeptOutside.raise (h : KeptOutside acc s t) (hacc : acc.bsr = true) (e : ErrCause) (op : Op) :
    KeptOutside acc s (t.raise e op) := by
  obtain ⟨hcrc, hframe, hstat, hres, -, hfmt, hhost⟩ := h
  exact ⟨hcrc, hframe, hstat, hres, by simp [hacc], hfmt, hhost⟩

/-- A new frame keeps everything outside an access that names each byte in which it differs. -/
theorem KeptOutside.setFrame {m : Memory} (h : KeptOutside acc s t)
    (hm : ∀ a < 7, a ∉ acc.frame → m.read a = s.frame.read a) : KeptOutside acc s (t.setFrame m) := by
  obtain ⟨hcrc, -, hstat, hres, hbsr, hfmt, hhost⟩ := h
  exact ⟨hcrc, hm, hstat, hres, hbsr, hfmt, hhost⟩

end

/-- The indices of a whole frame are all the indices there are. -/
theorem mem_frame_indices : ∀ a < 7, a ∈ [0, 1, 2, 3, 4, 5, 6] := by decide

/-- A command with a legal index keeps everything that the matrix does not mark w for it. -/
theorem keptOutside_instrWrites {i : Instr} {s t : State} (hi : i.wellFormed = true) (h : exec i s = .next t) :
    KeptOutside (instrWrites i) s t := by
  have hrefl := KeptOutside.refl (instrWrites i) s
  cases i with
  | nop =>
    cases h
    exact hrefl
  | crcInit =>
    cases h
    exact hrefl.setCrc rfl _
  | crcStep d =>
    cases h
    exact (hrefl.setCrc rfl _).setRes rfl _
  | frameClear | frameLoad =>
    cases h
    exact hrefl.setFrame fun a ha hout => absurd (mem_frame_indices a ha) hout
  | frameWrite idx d =>
    rw [exec_frameWrite_legal s (ne_seven_of_legal hi)] at h
    cases h
    refine hrefl.setFrame fun a _ hout => Memory.read_write_other _ _ _ _ ?_
    simpa [instrWrites] using hout
  | frameRead idx =>
    rw [exec_frameRead_legal s (ne_seven_of_legal hi)] at h
    cases h
    exact hrefl.setRes rfl _
  | statLoad _ | statFromFrame =>
    cases h
    exact hrefl.setStat rfl _
  | crcRead | crcFrame | crcCheck | bsrRead | cfgRead | humBits | tempBits | humPct | tempC | statRead | isBusy | isCal
  | isNormal | isCyclic | isCommand =>
    cases h
    exact hrefl.setRes rfl _

/-- A command with an illegal index keeps everything but BSR. -/
theorem keptOutside_bsr_of_not_wellFormed {i : Instr} {s t : State} (hi : i.wellFormed = false)
    (h : exec i s = .next t) : KeptOutside { bsr := true } s t := by
  obtain ⟨op, hop⟩ := exec_of_not_wellFormed hi s
  rw [hop] at h
  cases h
  exact (KeptOutside.refl _ s).raise rfl _ _

/-- Settles O19: a command with a legal index by its one update, one with an illegal index by its BAD_INDEX. -/
theorem commandsWriteOnlyWhatTheMatrixLists : Obligations.CommandsWriteOnlyWhatTheMatrixLists :=
  fun _ _ _ h => ⟨fun hi => keptOutside_instrWrites hi h, fun hi => keptOutside_bsr_of_not_wellFormed hi h⟩

/-! Its r entries -/

section
variable {acc : Access} {s s' : State}

theorem AgreeOn.crc_eq (h : AgreeOn acc s s') (hacc : acc.crc = true) : s.crc = s'.crc := by
  obtain ⟨hcrc, -⟩ := h
  exact hcrc hacc

theorem AgreeOn.read_eq (h : AgreeOn acc s s') : ∀ a ∈ acc.frame, s.frame.read a = s'.frame.read a := by
  obtain ⟨-, hframe, -⟩ := h
  exact hframe

theorem AgreeOn.stat_eq (h : AgreeOn acc s s') (hacc : acc.stat = true) : s.stat = s'.stat := by
  obtain ⟨-, -, hstat, -⟩ := h
  exact hstat hacc

theorem AgreeOn.bsr_eq (h : AgreeOn acc s s') (hacc : acc.bsr = true) : s.bsr = s'.bsr := by
  obtain ⟨-, -, -, -, hbsr, -⟩ := h
  exact hbsr hacc

theorem AgreeOn.fpFmt_eq (h : AgreeOn acc s s') (hacc : acc.cfg = true) : s.fpFmt = s'.fpFmt := by
  obtain ⟨-, -, -, -, -, hfmt, -⟩ := h
  exact hfmt hacc

theorem AgreeOn.frameIn_eq (h : AgreeOn acc s s') (hacc : acc.frameIn = true) : s.frameIn = s'.frameIn := by
  obtain ⟨-, -, -, -, -, -, hin⟩ := h
  exact hin hacc

end

section
variable (s s' : State)

theorem agreeOn_nothing : AgreeOn {} s s' := by
  simp [AgreeOn]

theorem agreeOn_setCrc {v v' : Byte} (h : v = v') : AgreeOn { crc := true } (s.setCrc v) (s'.setCrc v') := by
  simp [AgreeOn, h]

theorem agreeOn_setCrc_setRes {v v' : Byte} {r r' : ResWord} (hv : v = v') (hr : r = r') :
    AgreeOn { crc := true, res := true } ((s.setCrc v).setRes r) ((s'.setCrc v').setRes r') := by
  simp [AgreeOn, hv, hr]

theorem agreeOn_setStat {v v' : Byte} (h : v = v') : AgreeOn { stat := true } (s.setStat v) (s'.setStat v') := by
  simp [AgreeOn, h]

theorem agreeOn_setRes {r r' : ResWord} (h : r = r') : AgreeOn { res := true } (s.setRes r) (s'.setRes r') := by
  simp [AgreeOn, h]

theorem agreeOn_setFrame {m m' : Memory} {l : List Nat} (h : ∀ a ∈ l, m.read a = m'.read a) :
    AgreeOn { frame := l } (s.setFrame m) (s'.setFrame m') := by
  simpa [AgreeOn] using h

end

section
variable {m m' : Memory}

/-- The checked bytes are those at the indices the matrix lists for CRC_FRAME. -/
theorem frameBytes6_congr (h : ∀ a ∈ [0, 1, 2, 3, 4, 5], m.read a = m'.read a) : frameBytes6 m = frameBytes6 m' := by
  simp only [List.forall_mem_cons] at h
  simp [frameBytes6, h]

/-- The humidity field depends on three bytes (42_frame.md R120). -/
theorem humBits_congr (h : ∀ a ∈ [1, 2, 3], m.read a = m'.read a) : humBits m = humBits m' := by
  simp only [List.forall_mem_cons] at h
  simp [humBits, h]

/-- The temperature field depends on three bytes (42_frame.md R121). -/
theorem tempBits_congr (h : ∀ a ∈ [3, 4, 5], m.read a = m'.read a) : tempBits m = tempBits m' := by
  simp only [List.forall_mem_cons] at h
  simp [tempBits, h]

end

/-- From two states that agree on what a command reads, it leaves two that agree on what it writes. -/
theorem exec_agreeOn {i : Instr} {s s' : State} (hi : i.wellFormed = true) (h : AgreeOn (instrReads i) s s') :
    ∃ t t', exec i s = .next t ∧ exec i s' = .next t' ∧ AgreeOn (instrWrites i) t t' := by
  cases i with
  | nop => exact ⟨_, _, rfl, rfl, agreeOn_nothing s s'⟩
  | crcInit => exact ⟨_, _, rfl, rfl, agreeOn_setCrc s s' rfl⟩
  | crcStep d =>
    have hcrc : crcNext s.crc d = crcNext s'.crc d := by rw [h.crc_eq rfl]
    exact ⟨_, _, rfl, rfl, agreeOn_setCrc_setRes s s' hcrc (congrArg resOfByte hcrc)⟩
  | crcRead => exact ⟨_, _, rfl, rfl, agreeOn_setRes s s' (by rw [h.crc_eq rfl])⟩
  | crcFrame => exact ⟨_, _, rfl, rfl, agreeOn_setRes s s' (by rw [frameBytes6_congr h.read_eq])⟩
  | crcCheck =>
    have hbytes : frameBytes6 s.frame = frameBytes6 s'.frame :=
      frameBytes6_congr fun a ha => h.read_eq a (List.mem_append_left [6] ha)
    have hsix : s.frame.read 6 = s'.frame.read 6 := h.read_eq 6 (by simp [instrReads])
    exact ⟨_, _, rfl, rfl, agreeOn_setRes s s' (by rw [hbytes, hsix])⟩
  | bsrRead => exact ⟨_, _, rfl, rfl, agreeOn_setRes s s' (by rw [h.bsr_eq rfl])⟩
  | cfgRead => exact ⟨_, _, rfl, rfl, agreeOn_setRes s s' (by rw [State.cfg, State.cfg, h.fpFmt_eq rfl])⟩
  | frameClear => exact ⟨_, _, rfl, rfl, agreeOn_setFrame s s' fun _ _ => rfl⟩
  | frameWrite idx d =>
    have hidx := ne_seven_of_legal hi
    exact ⟨_, _, exec_frameWrite_legal s hidx d, exec_frameWrite_legal s' hidx d, agreeOn_setFrame s s' (by simp)⟩
  | frameLoad => exact ⟨_, _, rfl, rfl, agreeOn_setFrame s s' fun _ _ => by rw [h.frameIn_eq rfl]⟩
  | frameRead idx =>
    have hidx := ne_seven_of_legal hi
    have hbyte : s.frame.read idx.toNat = s'.frame.read idx.toNat := h.read_eq _ (by simp [instrReads])
    exact ⟨_, _, exec_frameRead_legal s hidx, exec_frameRead_legal s' hidx, agreeOn_setRes s s' (by rw [hbyte])⟩
  | humBits => exact ⟨_, _, rfl, rfl, agreeOn_setRes s s' (by rw [humBits_congr h.read_eq])⟩
  | tempBits => exact ⟨_, _, rfl, rfl, agreeOn_setRes s s' (by rw [tempBits_congr h.read_eq])⟩
  | humPct => exact ⟨_, _, rfl, rfl, agreeOn_setRes s s' (by rw [humBits_congr h.read_eq, h.fpFmt_eq rfl])⟩
  | tempC => exact ⟨_, _, rfl, rfl, agreeOn_setRes s s' (by rw [tempBits_congr h.read_eq, h.fpFmt_eq rfl])⟩
  | statLoad d => exact ⟨_, _, rfl, rfl, agreeOn_setStat s s' rfl⟩
  | statFromFrame => exact ⟨_, _, rfl, rfl, agreeOn_setStat s s' (h.read_eq 0 (by simp [instrReads]))⟩
  | statRead | isBusy | isCal | isNormal | isCyclic | isCommand =>
    exact ⟨_, _, rfl, rfl, agreeOn_setRes s s' (by rw [h.stat_eq rfl])⟩

/-- Settles O20: by cases on the command, what it writes being a function of what it reads. -/
theorem resultsDependOnlyOnWhatTheMatrixLists : Obligations.ResultsDependOnlyOnWhatTheMatrixLists := by
  intro i s s' t t' hi hagree h h'
  obtain ⟨u, u', hu, hu', hwrites⟩ := exec_agreeOn hi hagree
  obtain rfl := Host.Outcome.next.inj (hu.symm.trans h)
  obtain rfl := Host.Outcome.next.inj (hu'.symm.trans h')
  exact hwrites

end Sys2Proof.Machine
end

