-- ==== Sys2Proof/Proofs/StatusRegisters.lean ====
section
/-! PROOF. The two registers that commands do not write: BSR, which only an error or reset changes, and CFG, which nothing
changes (10_state.md R25, R26; 60_exceptions.md R170, R171). -/
namespace Sys2Proof.Machine

/-- A word with a reserved OP raises ILLEGAL_OP. -/
theorem raisesCode_of_reserved {w : CmdWord} (h : 0x18 ≤ (opField w).toNat) : raisesCode w = some 0b01 :=
  if_pos h

/-- FRAME_WRITE's or FRAME_READ's OP with index 7 raises BAD_INDEX. -/
theorem raisesCode_of_fields {w : CmdWord} (hop : opField w = 0x09 ∨ opField w = 0x0B) (hidx : idxField w = 7) :
    raisesCode w = some 0b10 := by
  have hlt : ¬ 0x18 ≤ (opField w).toNat := by rcases hop with e | e <;> rw [e] <;> decide
  exact (if_neg hlt).trans (if_pos ⟨hop, hidx⟩)

/-- A word that decodes to a command with an illegal index raises BAD_INDEX. -/
theorem raisesCode_of_not_wellFormed {w : CmdWord} {i : Instr} (hd : decode w = .ok i) (hi : i.wellFormed = false) :
    raisesCode w = some 0b10 := by
  obtain ⟨d, rfl⟩ | rfl := (wellFormed_eq_false_iff i).mp hi
  · obtain ⟨hop, hidx⟩ := fields_of_decode_eq_frameWrite hd
    exact raisesCode_of_fields (.inl hop) hidx
  · obtain ⟨hop, hidx⟩ := fields_of_decode_eq_frameRead hd
    exact raisesCode_of_fields (.inr hop) hidx

/-- The matrix marks BSR w for no command. -/
theorem instrWrites_bsr (i : Instr) : (instrWrites i).bsr = false := by
  cases i <;> rfl

/-- A command with a legal index leaves BSR as it was. -/
theorem bsr_eq_of_wellFormed {i : Instr} {s t : State} (hi : i.wellFormed = true) (h : exec i s = .next t) :
    t.bsr = s.bsr := by
  obtain ⟨-, -, -, -, hbsr, -⟩ := keptOutside_instrWrites hi h
  exact hbsr (instrWrites_bsr i)

/-- Only the first error changes BSR (60_exceptions.md R171). -/
theorem bsrErr_eq_zero_of_bsrRaise_ne {e : ErrCause} {op : Op} {b : Byte} (h : bsrRaise e op b ≠ b) : bsrErr b = 0 := by
  by_contra hne
  exact h (bsrRaise_later (bit_eq_one_of_ne_zero _ hne))

/-- Settles O15: by the cases of a step; a command that changes BSR has an illegal index. -/
theorem bsrChangesOnlyByFirstErrorOrReset : Obligations.BsrChangesOnlyByFirstErrorOrReset := by
  intro s t h hne
  cases stepCase_of_step h with
  | idle _ => exact absurd rfl hne
  | reset rest hp => exact .inl ⟨rest, hp⟩
  | @command w f rest i _ hp hd he =>
    cases hi : i.wellFormed with
    | true => exact absurd (bsr_eq_of_wellFormed hi he) hne
    | false =>
      obtain ⟨op, hop⟩ := exec_of_not_wellFormed hi (s.accept f rest)
      rw [hop] at he
      cases he
      refine .inr ⟨bsrErr_eq_zero_of_bsrRaise_ne hne, w, f, rest, hp, ?_⟩
      simp [raisesCode_of_not_wellFormed hd hi]
  | @reserved w f rest hp hop =>
    refine .inr ⟨bsrErr_eq_zero_of_bsrRaise_ne hne, w, f, rest, hp, ?_⟩
    simp [raisesCode_of_reserved hop]

/-- No command changes the format. -/
theorem ExecShape.fpFmt_eq {s t : State} (h : ExecShape s t) : t.fpFmt = s.fpFmt := by
  cases h <;> rfl

/-- No step changes the format, reset among them. -/
theorem fpFmt_eq_of_step {s t : State} (h : step s = .next t) : t.fpFmt = s.fpFmt := by
  cases stepCase_of_step h with
  | command _ _ he => exact (execShape_of_exec he).fpFmt_eq
  | idle _ | reset _ _ | reserved _ _ => rfl

/-- CFG's bits 7:1 are hardwired to 0. -/
theorem extractLsb'_cfgOf : ∀ f : FpFmt, (cfgOf f).extractLsb' 1 7 = 0
  | .binary32 | .binary64 => rfl

/-- FPF is 1 exactly for the format binary64. -/
theorem getLsbD_cfgOf_iff (f : FpFmt) : (cfgOf f).getLsbD 0 = true ↔ f = .binary64 := by
  cases f <;> decide

/-- Settles O18: no step changes the format, and CFG is computed from it. -/
theorem cfgIsHardwired : Obligations.CfgIsHardwired :=
  ⟨fun _ _ h => congrArg cfgOf (fpFmt_eq_of_step h), fun s => ⟨extractLsb'_cfgOf s.fpFmt, getLsbD_cfgOf_iff s.fpFmt⟩⟩

end Sys2Proof.Machine
end

