-- ==== Sys2Proof/Proofs/Idempotence.lean ====
section
/-! PROOF. Repeating a command: every command but CRC_STEP writes a value that its own write does not change (20_memory.md
R45; 40_crc.md R84). -/
namespace Sys2Proof.Machine

/-- Raising an error a second time changes nothing: the first one is kept (60_exceptions.md R171). -/
theorem State.raise_raise (s : State) (e : ErrCause) (op : Op) : (s.raise e op).raise e op = s.raise e op :=
  congrArg s.setBsr (bsrRaise_bsrRaise e op s.bsr)

/-- Writing the same frame byte a second time changes nothing, as a state. -/
theorem State.setFrame_write_write (s : State) (a : Nat) (d : Byte) :
    (s.setFrame (s.frame.write a d)).setFrame ((s.frame.write a d).write a d) = s.setFrame (s.frame.write a d) :=
  congrArg s.setFrame (s.frame.write_write a d)

/-- A command with an illegal index is idempotent: it only raises BAD_INDEX. -/
theorem exec_idem_of_not_wellFormed {i : Instr} {s t : State} (hi : i.wellFormed = false) (h : exec i s = .next t) :
    exec i t = .next t := by
  obtain ⟨d, rfl⟩ | rfl := (wellFormed_eq_false_iff i).mp hi
  · cases h
    exact congrArg Host.Outcome.next (s.raise_raise .badIndex 0x09)
  · cases h
    exact congrArg Host.Outcome.next (s.raise_raise .badIndex 0x0B)

/-- A command with a legal index is idempotent unless it is CRC_STEP, the one that reads a register it writes: every
other one's value is the same after its own write. -/
theorem exec_idem_of_wellFormed {i : Instr} {s t : State} (hne : ∀ d, i ≠ .crcStep d) (hi : i.wellFormed = true)
    (h : exec i s = .next t) : exec i t = .next t := by
  cases i with
  | crcStep d => exact absurd rfl (hne d)
  | frameWrite idx d =>
    have hidx := ne_seven_of_legal hi
    rw [exec_frameWrite_legal s hidx] at h
    cases h
    exact (exec_frameWrite_legal _ hidx d).trans (congrArg Host.Outcome.next (s.setFrame_write_write _ d))
  | frameRead idx =>
    have hidx := ne_seven_of_legal hi
    rw [exec_frameRead_legal s hidx] at h
    cases h
    exact exec_frameRead_legal _ hidx
  | nop | crcInit | crcRead | crcFrame | crcCheck | bsrRead | cfgRead | frameClear | frameLoad | humBits | tempBits
  | humPct | tempC | statLoad _ | statFromFrame | statRead | isBusy | isCal | isNormal | isCyclic | isCommand =>
    cases h
    rfl

/-- Settles O22: a command with an illegal index by the first error being kept, one with a legal index by its one
update. -/
theorem repeatingACommandChangesNothing : Obligations.RepeatingACommandChangesNothing := by
  intro i s t hne h
  cases hi : i.wellFormed with
  | true => exact exec_idem_of_wellFormed hne hi h
  | false => exact exec_idem_of_not_wellFormed hi h

end Sys2Proof.Machine
end

