-- ==== Sys2Proof/Proofs/Encoding.lean ====
section
/-! PROOF. The decoder and the encoder agree: a word is the command `i` exactly when the bits that `i` uses are those of
`encode i` (30_encoding.md R61 to R65); and the step runs the command that the decoder reads (R69). -/
namespace Sys2Proof

/-- Two words are equal exactly when their three fields are. -/
@[simp] theorem cmdWord_inj {op op' : Op} {idx idx' : Idx} {data data' : Byte} :
    cmdWord op idx data = cmdWord op' idx' data' ↔ op = op' ∧ idx = idx' ∧ data = data' := by
  constructor
  · intro h
    exact ⟨by simpa using congrArg opField h, by simpa using congrArg idxField h, by simpa using congrArg dataField h⟩
  · rintro ⟨rfl, rfl, rfl⟩
    rfl

/-- A word is masked field by field. -/
theorem and_cmdWord (w : CmdWord) (op : Op) (idx : Idx) (data : Byte) :
    w &&& cmdWord op idx data = cmdWord (opField w &&& op) (idxField w &&& idx) (dataField w &&& data) := by
  conv_lhs => rw [← cmdWord_fields w]
  exact cmdWord_and _ _ _ _ _ _

/-! The four masks of `usedBits` keep or clear whole fields -/

@[simp] theorem and_opMask (w : CmdWord) : w &&& 0xF800#16 = cmdWord (opField w) 0#3 0#8 := by
  have h := and_cmdWord w (.allOnes 5) 0#3 0#8
  rwa [BitVec.and_allOnes, BitVec.and_zero, BitVec.and_zero] at h

@[simp] theorem and_opDataMask (w : CmdWord) : w &&& 0xF8FF#16 = cmdWord (opField w) 0#3 (dataField w) := by
  have h := and_cmdWord w (.allOnes 5) 0#3 (.allOnes 8)
  rwa [BitVec.and_allOnes, BitVec.and_zero, BitVec.and_allOnes] at h

@[simp] theorem and_opIdxMask (w : CmdWord) : w &&& 0xFF00#16 = cmdWord (opField w) (idxField w) 0#8 := by
  have h := and_cmdWord w (.allOnes 5) (.allOnes 3) 0#8
  rwa [BitVec.and_allOnes, BitVec.and_allOnes, BitVec.and_zero] at h

@[simp] theorem and_allFieldsMask (w : CmdWord) :
    w &&& 0xFFFF#16 = cmdWord (opField w) (idxField w) (dataField w) := by
  have h := and_cmdWord w (.allOnes 5) (.allOnes 3) (.allOnes 8)
  rwa [BitVec.and_allOnes, BitVec.and_allOnes, BitVec.and_allOnes] at h

namespace Machine

/-- What a decoded word has in its used bits: each arm of the decoder fixes the OP and copies the fields in use. -/
theorem encode_eq_of_decode {w : CmdWord} {i : Instr} (h : decode w = .ok i) : encode i = w &&& usedBits i := by
  unfold decode at h
  split at h <;> cases h
  all_goals
    rename_i hop
    simp [usedBits, encode, hop]

/-- The used bits of a command, whatever the others are, make a word that decodes to it (30_encoding.md R64). -/
theorem decode_of_usedBits {w : CmdWord} {i : Instr} (h : w &&& usedBits i = encode i) : decode w = .ok i := by
  cases i
  all_goals
    simp [usedBits, encode] at h
    simp [decode, h]

/-- A word is the command `i` exactly when its bits that `i` uses are those of `encode i`. -/
theorem decode_eq_ok_iff {w : CmdWord} {i : Instr} : decode w = .ok i ↔ w &&& usedBits i = encode i :=
  ⟨fun h => (encode_eq_of_decode h).symm, decode_of_usedBits⟩

/-- The encoder writes the bits a command does not use as zero: the support lemmas of `Laws.IgnoredBits`, gathered. -/
theorem encode_and_usedBits (i : Instr) : encode i &&& usedBits i = encode i := by
  cases i with
  | crcStep d => exact Laws.IgnoredBits.crcStep d
  | frameWrite idx d => exact Laws.IgnoredBits.frameWrite idx d
  | frameRead idx => exact Laws.IgnoredBits.frameRead idx
  | statLoad d => exact Laws.IgnoredBits.statLoad d
  | nop | crcInit | crcRead | crcFrame | crcCheck | bsrRead | cfgRead | frameClear | frameLoad | humBits | tempBits
  | humPct | tempC | statFromFrame | statRead | isBusy | isCal | isNormal | isCyclic | isCommand => rfl

theorem decode_encode (i : Instr) : decode (encode i) = .ok i :=
  decode_of_usedBits (encode_and_usedBits i)

/-- Settles O1: the encoder's word has the command's used bits. -/
theorem decodeOfEncodeIsIdentity : Obligations.DecodeOfEncodeIsIdentity :=
  decode_encode

/-- Two words that decode to the same command make the same step from every state. -/
theorem step_congr_of_decode {w w' : CmdWord} {i : Instr} (h : decode w = .ok i) (h' : decode w' = .ok i) (s : State)
    (f : FrameIn) (rest : List HostEvent) :
    step { s with pending := .command w' f :: rest } = step { s with pending := .command w f :: rest } := by
  rw [step_command rfl h', step_command rfl h]
  rfl

/-- Settles O2: both words have the used bits of the command. -/
theorem ignoredBitsChangeNothing : Obligations.IgnoredBitsChangeNothing := by
  intro w i h
  refine ⟨encode_eq_of_decode h, fun w' hw => ?_⟩
  have h' : decode w' = .ok i := decode_of_usedBits (hw.trans (decode_eq_ok_iff.mp h))
  exact ⟨h', step_congr_of_decode h h'⟩

/-- The OP of FRAME_WRITE or FRAME_READ with index 7 is a command with an illegal index. -/
theorem wellFormed_eq_false_of_fields {w : CmdWord} {i : Instr} (h : decode w = .ok i)
    (hop : opField w = 0x09 ∨ opField w = 0x0B) (hidx : idxField w = 7) : i.wellFormed = false := by
  rw [wellFormed_eq_false_iff]
  rcases hop with hop | hop
  · have hw : decode w = .ok (.frameWrite 7 (dataField w)) := by simp [decode, hop, hidx]
    exact .inl ⟨dataField w, Except.ok.inj (h.symm.trans hw)⟩
  · have hr : decode w = .ok (.frameRead 7) := by simp [decode, hop, hidx]
    exact .inr (Except.ok.inj (h.symm.trans hr))

/-- A command with an illegal index has the OP of FRAME_WRITE or FRAME_READ and index 7. -/
theorem fields_of_not_wellFormed {w : CmdWord} {i : Instr} (h : decode w = .ok i) (hi : i.wellFormed = false) :
    (opField w = 0x09 ∨ opField w = 0x0B) ∧ idxField w = 7 := by
  obtain ⟨d, rfl⟩ | rfl := (wellFormed_eq_false_iff i).mp hi
  · obtain ⟨hop, hidx⟩ := fields_of_decode_eq_frameWrite h
    exact ⟨.inl hop, hidx⟩
  · obtain ⟨hop, hidx⟩ := fields_of_decode_eq_frameRead h
    exact ⟨.inr hop, hidx⟩

/-- Settles O3: a reserved OP is turned away, every other one is a command. -/
theorem everyWordIsACommandOrReserved : Obligations.EveryWordIsACommandOrReserved := by
  refine fun w => ⟨decode_reserved, fun hlt => ?_⟩
  obtain ⟨i, hi⟩ := exists_decode_eq_ok hlt
  exact ⟨i, hi, fields_of_not_wellFormed hi, fun ⟨hop, hidx⟩ => wellFormed_eq_false_of_fields hi hop hidx⟩

/-- Settles O4: the decoder, run on each word. -/
theorem writtenOutWordsDecode : Obligations.WrittenOutWordsDecode := by
  unfold Obligations.WrittenOutWordsDecode
  decide

/-- Settles O6: the state that holds `f` and the later interactions is `s.accept f rest`. -/
theorem stepRunsTheDecodedCommand : Obligations.StepRunsTheDecodedCommand :=
  fun _ _ _ _ _ hp hd => step_command hp hd

end Machine
end Sys2Proof
end

