-- ==== Sys2Proof/Proofs/Assembler.lean ====
section
/-! PROOF. The assembler of 30_encoding.md R67: what it makes of an operand, then of a line with each mnemonic. -/
namespace Sys2Proof

/-! Operands -/

theorem asmData_of_isData {a : AsmNum} (f : Byte → Instr) (h : a.isData = true) :
    asmData f a = .ok (f (BitVec.ofNat 8 a.value)) := by
  simp [asmData, AsmNum.toData, h]

theorem asmData_of_not_isData {a : AsmNum} (f : Byte → Instr) (h : a.isData = false) :
    asmData f a = .error .dataOutOfRange := by
  simp [asmData, AsmNum.toData, h]

theorem asmFrameWrite_of_isIdx {a : AsmNum} (b : AsmNum) (h : a.isIdx = true) :
    asmFrameWrite a b = asmData (.frameWrite (BitVec.ofNat 3 a.value)) b := by
  simp [asmFrameWrite, AsmNum.toIdx, h]

theorem asmFrameWrite_of_not_isIdx {a : AsmNum} (b : AsmNum) (h : a.isIdx = false) :
    asmFrameWrite a b = .error .idxOutOfRange := by
  simp [asmFrameWrite, AsmNum.toIdx, h]

theorem asmFrameRead_of_isIdx {a : AsmNum} (h : a.isIdx = true) :
    asmFrameRead a = .ok (.frameRead (BitVec.ofNat 3 a.value)) := by
  simp [asmFrameRead, AsmNum.toIdx, h]

theorem asmFrameRead_of_not_isIdx {a : AsmNum} (h : a.isIdx = false) : asmFrameRead a = .error .idxOutOfRange := by
  simp [asmFrameRead, AsmNum.toIdx, h]

/-! Which operands are taken -/

theorem exists_asmData_eq_ok_iff (f : Byte → Instr) (a : AsmNum) : (∃ i, asmData f a = .ok i) ↔ a.isData = true := by
  cases h : a.isData <;> simp [asmData_of_isData, asmData_of_not_isData, h]

theorem exists_asmFrameWrite_eq_ok_iff (a b : AsmNum) :
    (∃ i, asmFrameWrite a b = .ok i) ↔ a.isIdx = true ∧ b.isData = true := by
  cases h : a.isIdx <;> simp [asmFrameWrite_of_isIdx, asmFrameWrite_of_not_isIdx, exists_asmData_eq_ok_iff, h]

theorem exists_asmFrameRead_eq_ok_iff (a : AsmNum) : (∃ i, asmFrameRead a = .ok i) ↔ a.isIdx = true := by
  cases h : a.isIdx <;> simp [asmFrameRead_of_isIdx, asmFrameRead_of_not_isIdx, h]

/-! Lines -/

/-- A mnemonic that stands alone on its line makes its command, and takes no operand. -/
theorem assemble_of_lookup_eq_some {l : AsmLine} {i : Instr} (h : bareCommands.lookup l.mnemonic = some i) :
    assemble l = if l.operands = [] then .ok i else .error .wrongOperands := by
  unfold assemble
  rw [h]
  cases l.operands <;> rfl

theorem assemble_of_lookup_eq_none {l : AsmLine} (h : bareCommands.lookup l.mnemonic = none) :
    assemble l = asmWithOperands l.mnemonic l.operands := by
  unfold assemble
  rw [h]

theorem assemble_crcStep (a : AsmNum) : assemble ⟨"CRC_STEP", [a]⟩ = asmData .crcStep a := rfl

theorem assemble_statLoad (a : AsmNum) : assemble ⟨"STAT_LOAD", [a]⟩ = asmData .statLoad a := rfl

theorem assemble_frameWrite (a b : AsmNum) : assemble ⟨"FRAME_WRITE", [a, b]⟩ = asmFrameWrite a b := rfl

theorem assemble_frameRead (a : AsmNum) : assemble ⟨"FRAME_READ", [a]⟩ = asmFrameRead a := rfl

/-- A mnemonic that takes operands does not stand alone. -/
theorem lookup_withOperands :
    ∀ m ∈ ["CRC_STEP", "STAT_LOAD", "FRAME_WRITE", "FRAME_READ"], bareCommands.lookup m = none := by decide

/-- A line with operands that is well formed has one of the four mnemonics that take operands. -/
theorem mem_withOperands_of_wellFormed {m : String} {ops : List AsmNum} (hne : ops ≠ [])
    (h : AsmLine.wellFormed ⟨m, ops⟩ = true) : m ∈ ["CRC_STEP", "STAT_LOAD", "FRAME_WRITE", "FRAME_READ"] := by
  match ops with
  | [] => exact absurd rfl hne
  | [a] =>
    have hm : ((m = "CRC_STEP" ∨ m = "STAT_LOAD") ∧ a.isData = true) ∨ (m = "FRAME_READ" ∧ a.isIdx = true) := by
      simpa [AsmLine.wellFormed] using h
    obtain ⟨rfl | rfl, -⟩ | ⟨rfl, -⟩ := hm <;> decide
  | [a, b] =>
    have hm : (m = "FRAME_WRITE" ∧ a.isIdx = true) ∧ b.isData = true := by simpa [AsmLine.wellFormed] using h
    obtain ⟨⟨rfl, -⟩, -⟩ := hm
    decide
  | _ :: _ :: _ :: _ => exact absurd h (by simp [AsmLine.wellFormed])

/-- The four mnemonics with operands take exactly the well-formed operands. -/
theorem exists_asmWithOperands_eq_ok_iff (m : String) (ops : List AsmNum) :
    (∃ i, asmWithOperands m ops = .ok i) ↔ ops ≠ [] ∧ AsmLine.wellFormed ⟨m, ops⟩ = true := by
  unfold asmWithOperands
  match ops with
  | [] => split_ifs <;> simp
  | [a] => split_ifs <;> simp_all [AsmLine.wellFormed, exists_asmData_eq_ok_iff, exists_asmFrameRead_eq_ok_iff]
  | [a, b] => split_ifs <;> simp_all [AsmLine.wellFormed, exists_asmFrameWrite_eq_ok_iff]
  | _ :: _ :: _ :: _ => split_ifs <;> simp [AsmLine.wellFormed]

/-- The assembler takes the well-formed lines and no others. -/
theorem wellFormed_iff_exists_assemble_eq_ok (l : AsmLine) : l.wellFormed = true ↔ ∃ i, assemble l = .ok i := by
  obtain ⟨m, ops⟩ := l
  cases hl : bareCommands.lookup m with
  | some i =>
    rw [assemble_of_lookup_eq_some hl]
    by_cases hops : ops = []
    · subst hops
      simp [AsmLine.wellFormed, hl]
    · have hwf : AsmLine.wellFormed ⟨m, ops⟩ ≠ true := fun h => by
        simp [lookup_withOperands m (mem_withOperands_of_wellFormed hops h)] at hl
      simp [hops, hwf]
  | none =>
    rw [assemble_of_lookup_eq_none hl, exists_asmWithOperands_eq_ok_iff]
    refine ⟨fun h => ⟨?_, h⟩, And.right⟩
    rintro rfl
    simp [AsmLine.wellFormed, hl] at h

/-! Ranges -/

theorem isIdx_dec {k : Nat} (hk : k ≤ 7) : (AsmNum.dec k).isIdx = true := decide_eq_true hk

theorem isIdx_dec_toNat (idx : Idx) : (AsmNum.dec idx.toNat).isIdx = true := isIdx_dec (Nat.le_of_lt_succ idx.isLt)

theorem isData_dec_toNat (d : Byte) : (AsmNum.dec d.toNat).isData = true := decide_eq_true (Nat.le_of_lt_succ d.isLt)

/-- Decimal and hex write the same number, and the range of `data` is the same for both. -/
theorem value_and_isData_of_mem {n : Nat} {a : AsmNum} (h : a ∈ [AsmNum.dec n, AsmNum.hex n]) :
    a.value = n ∧ a.isData = decide (n ≤ 255) := by
  simp only [List.mem_cons, List.not_mem_nil, or_false] at h
  obtain rfl | rfl := h <;> exact ⟨rfl, rfl⟩

/-- An index above 7 and an index in hex are out of range. -/
theorem isIdx_eq_false_of_mem {n : Nat} {a : AsmNum} (h : a ∈ [AsmNum.dec (n + 8), AsmNum.hex n]) :
    a.isIdx = false := by
  simp only [List.mem_cons, List.not_mem_nil, or_false] at h
  obtain rfl | rfl := h
  · exact decide_eq_false (Nat.not_le_of_lt (Nat.le_add_left 8 n))
  · rfl

/-- A command's own line assembles to the command. -/
theorem assemble_disassemble (i : Instr) : assemble (disassemble i) = .ok i := by
  cases i with
  | crcStep d =>
    rw [disassemble, assemble_crcStep, asmData_of_isData _ (isData_dec_toNat d), AsmNum.value, BitVec.ofNat_toNat,
      BitVec.setWidth_eq]
  | statLoad d =>
    rw [disassemble, assemble_statLoad, asmData_of_isData _ (isData_dec_toNat d), AsmNum.value, BitVec.ofNat_toNat,
      BitVec.setWidth_eq]
  | frameWrite idx d =>
    rw [disassemble, assemble_frameWrite, asmFrameWrite_of_isIdx _ (isIdx_dec_toNat idx),
      asmData_of_isData _ (isData_dec_toNat d)]
    simp [AsmNum.value]
  | frameRead idx =>
    rw [disassemble, assemble_frameRead, asmFrameRead_of_isIdx (isIdx_dec_toNat idx), AsmNum.value, BitVec.ofNat_toNat,
      BitVec.setWidth_eq]
  | nop | crcInit | crcRead | crcFrame | crcCheck | bsrRead | cfgRead | frameClear | frameLoad | humBits | tempBits
  | humPct | tempC | statFromFrame | statRead | isBusy | isCal | isNormal | isCyclic | isCommand => rfl

/-- Settles O5: each clause is what the assembler makes of an operand in or out of its range. -/
theorem assemblerTakesRangesExactly : Obligations.AssemblerTakesRangesExactly := by
  refine ⟨fun i => ⟨(wellFormed_iff_exists_assemble_eq_ok _).mpr ⟨i, assemble_disassemble i⟩, assemble_disassemble i⟩,
    wellFormed_iff_exists_assemble_eq_ok, fun n hn a ha => ?_, fun k hk => ?_, fun n hn a ha => ?_, fun n a ha => ?_⟩
  · obtain ⟨hval, hdata⟩ := value_and_isData_of_mem ha
    replace hdata := hdata.trans (decide_eq_true hn)
    rw [assemble_crcStep, assemble_statLoad, asmData_of_isData _ hdata, asmData_of_isData _ hdata, hval]
    refine ⟨rfl, rfl, fun k hk => ?_⟩
    rw [assemble_frameWrite, asmFrameWrite_of_isIdx _ (isIdx_dec hk), asmData_of_isData _ hdata, hval]
    rfl
  · rw [assemble_frameRead, asmFrameRead_of_isIdx (isIdx_dec hk)]
    rfl
  · obtain ⟨-, hdata⟩ := value_and_isData_of_mem ha
    replace hdata := hdata.trans (decide_eq_false (Nat.not_le_of_lt hn))
    refine ⟨asmData_of_not_isData _ hdata, asmData_of_not_isData _ hdata, fun k hk => ?_⟩
    rw [assemble_frameWrite, asmFrameWrite_of_isIdx _ (isIdx_dec hk), asmData_of_not_isData _ hdata]
  · have hidx := isIdx_eq_false_of_mem ha
    exact ⟨asmFrameRead_of_not_isIdx hidx, fun b => asmFrameWrite_of_not_isIdx b hidx⟩

end Sys2Proof
end

