-- ==== Sys2Proof/Proofs/Expansions.lean ====
section
/-! PROOF. A run of the words an assembler writes for a list of commands executes the list, whatever the host does after
it; so the expansions of 30_encoding.md R68 do what their commands do in sequence. -/
namespace Sys2Proof.Machine

/-- The commands executed one after the other. -/
def execList : List Instr → State → Host.Outcome State Fault Refusal
  | [], s => .next s
  | i :: is, s =>
    match exec i s with
    | .next t => execList is t
    | .fault r => .fault r
    | .refused r => .refused r

@[simp] theorem execList_nil (s : State) : execList [] s = .next s := rfl

theorem execList_cons {i : Instr} {s t : State} (is : List Instr) (h : exec i s = .next t) :
    execList (i :: is) s = execList is t := by
  simp [execList, h]

@[simp] theorem commandsOf_cons (i : Instr) (is : List Instr) (f : FrameIn) :
    commandsOf (i :: is) f = .command (encode i) f :: commandsOf is f := rfl

/-- Of two interactions accepted, the later one's frame input and what it left pending stand. -/
theorem State.accept_accept (s : State) (f f' : FrameIn) (rest rest' : List HostEvent) :
    (s.accept f rest).accept f' rest' = s.accept f' rest' := rfl

/-- No command reads or changes what the host does later (log entry 1). -/
theorem exec_accept {i : Instr} {s t : State} {f : FrameIn} {rest : List HostEvent}
    (h : exec i (s.accept f rest) = .next t) (rest' : List HostEvent) :
    exec i (s.accept f rest') = .next (t.accept f rest') := by
  cases i with
  | frameWrite idx d =>
    by_cases hidx : idx = 7
    · subst hidx
      cases h
      rfl
    · rw [exec_frameWrite_legal _ hidx] at h ⊢
      cases h
      rfl
  | frameRead idx =>
    by_cases hidx : idx = 7
    · subst hidx
      cases h
      rfl
    · rw [exec_frameRead_legal _ hidx] at h ⊢
      cases h
      rfl
  | nop | crcInit | crcStep _ | crcRead | crcFrame | crcCheck | bsrRead | cfgRead | frameClear | frameLoad | humBits
  | tempBits | humPct | tempC | statLoad _ | statFromFrame | statRead | isBusy | isCal | isNormal | isCyclic
  | isCommand =>
    cases h
    rfl

/-- A command keeps the host's side of the state it runs in. -/
theorem accept_of_exec_accept {i : Instr} {s t : State} {f : FrameIn} {rest : List HostEvent}
    (h : exec i (s.accept f rest) = .next t) : t.accept f rest = t :=
  Host.Outcome.next.inj ((exec_accept h rest).symm.trans h)

/-- A run over the words of one or more commands executes them, the later interactions still pending. -/
theorem run_commandsOf {i : Instr} {is : List Instr} {s : State} {f : FrameIn} {rest : List HostEvent}
    (hp : s.pending = commandsOf (i :: is) f ++ rest) :
    core.run (is.length + 1) s = execList (i :: is) (s.accept f rest) := by
  induction is generalizing i s with
  | nil =>
    obtain ⟨t, ht, -⟩ := exec_shape i (s.accept f rest)
    rw [run_succ ((step_command hp (decode_encode i)).trans ht), execList_cons _ ht]
    rfl
  | cons j is ih =>
    obtain ⟨t, ht, -⟩ := exec_shape i (s.accept f rest)
    have hstep : step s = .next (t.accept f (commandsOf (j :: is) f ++ rest)) :=
      (step_command hp (decode_encode i)).trans (exec_accept ht _)
    rw [List.length_cons, run_succ hstep, ih rfl, State.accept_accept, accept_of_exec_accept ht,
      execList_cons _ ht]

/-! CRC_BYTES -/

/-- CRC_STEP over a list of bytes runs the CRC loop; RES holds the last CRC, if there was a byte. -/
theorem execList_crcStep (bs : List Byte) (s : State) :
    execList (bs.map .crcStep) s =
      .next ((s.setCrc (crcFrom s.crc bs)).setRes (if bs = [] then s.res else resOfByte (crcFrom s.crc bs))) := by
  induction bs generalizing s with
  | nil => rfl
  | cons b bs ih =>
    rw [List.map_cons, execList_cons _ (exec_crcStep s b), ih]
    cases bs <;> rfl

/-- The commands of CRC_BYTES leave the CRC of the bytes. -/
theorem execList_crcBytes (bs : List Byte) (s : State) :
    execList (Pseudo.crcBytes bs).expand s =
      .next ((s.setCrc (crc8 bs)).setRes (if bs = [] then s.res else resOfByte (crc8 bs))) :=
  (execList_cons _ (exec_crcInit s)).trans (execList_crcStep bs _)

/-- Settles O35: the run executes the expansion, whose CRC loop is the fold of the bytes. -/
theorem crcBytesStreamsTheCrc : Obligations.CrcBytesStreamsTheCrc := by
  intro bs s f rest hp
  have hrun := (run_commandsOf hp).trans (execList_crcBytes bs _)
  rw [List.length_map] at hrun
  refine ⟨_, hrun, crcFrom_eq_foldl _ _, ?_, fun _ => rfl, rfl, rfl, rfl, rfl⟩
  simp [resOfByte_eq_append]

/-! FRAME_SET and BUSY_OF_FRAME -/

/-- A busy test's result in RES is the busy bit (41_status.md R106). -/
theorem resOfBool_isBusyTest : ∀ st : Byte, resOfBool (isBusyTest st) = (0#63) ++ st.extractLsb' 7 1 := by decide

/-- The frame after seven writes at the indices in order. -/
def Memory.setSeven (m : Memory) (b0 b1 b2 b3 b4 b5 b6 : Byte) : Memory :=
  ((((((m.write 0 b0).write 1 b1).write 2 b2).write 3 b3).write 4 b4).write 5 b5).write 6 b6

theorem Memory.read_setSeven (m : Memory) (b0 b1 b2 b3 b4 b5 b6 : Byte) {a : Nat} (ha : a < 7) :
    (m.setSeven b0 b1 b2 b3 b4 b5 b6).read a = [b0, b1, b2, b3, b4, b5, b6].getD a 0 := by
  unfold Memory.setSeven
  interval_cases a <;> simp

theorem execList_frameSet (b0 b1 b2 b3 b4 b5 b6 : Byte) (s : State) :
    execList (Pseudo.frameSet b0 b1 b2 b3 b4 b5 b6).expand s =
      .next (s.setFrame (s.frame.setSeven b0 b1 b2 b3 b4 b5 b6)) := rfl

theorem execList_busyOfFrame (s : State) :
    execList Pseudo.busyOfFrame.expand s =
      .next ((s.setStat (s.frame.read 0)).setRes (resOfBool (isBusyTest (s.frame.read 0)))) := rfl

/-- Settles O51: each run executes its expansion. -/
theorem frameSetAndBusyOfFrame : Obligations.FrameSetAndBusyOfFrame := by
  constructor
  · intro b0 b1 b2 b3 b4 b5 b6 s f rest hp
    exact ⟨_, (run_commandsOf hp).trans (execList_frameSet b0 b1 b2 b3 b4 b5 b6 _),
      fun a ha => Memory.read_setSeven _ _ _ _ _ _ _ _ ha, rfl, rfl, rfl, rfl, rfl, rfl⟩
  · intro s f rest hp
    exact ⟨_, (run_commandsOf hp).trans (execList_busyOfFrame _), resOfBool_isBusyTest _, rfl, rfl, fun _ => rfl, rfl,
      rfl, rfl⟩

end Sys2Proof.Machine
end

