-- ==== Sys2Proof/Proofs/OpcodeRows.lean ====
section
/-! PROOF. One row of the opcode table at a time (30_encoding.md R63): the words that decode to a command, and the word
of a command that uses DATA alone. -/
namespace Sys2Proof.Machine

/-- An OP decodes to `mk` when the fields that `mk` uses, with that OP, make its encoded word. -/
theorem opDecodesTo_of_usedBits {op : Op} {mk : Idx → Byte → Instr}
    (h : ∀ idx data, cmdWord op idx data &&& usedBits (mk idx data) = encode (mk idx data)) : OpDecodesTo op mk := by
  intro w hop
  have hw : cmdWord op (idxField w) (dataField w) = w := by
    rw [← hop]
    exact cmdWord_fields w
  have hused := h (idxField w) (dataField w)
  rw [hw] at hused
  exact decode_of_usedBits hused

/-- With IDX zero, DATA is a part of the word that can be put in by OR. -/
theorem cmdWord_zero_eq_or (op : Op) (data : Byte) :
    cmdWord op 0#3 data = cmdWord op 0#3 0#8 ||| data.setWidth 16 := by
  have h : data.setWidth 16 = cmdWord 0#5 0#3 data := by
    apply BitVec.eq_of_toNat_eq
    rw [cmdWord_toNat, BitVec.toNat_setWidth, BitVec.toNat_zero, BitVec.toNat_zero]
    omega
  rw [h, cmdWord, cmdWord, cmdWord, BitVec.or_append, BitVec.or_append, BitVec.or_zero, BitVec.or_zero, BitVec.zero_or]

end Sys2Proof.Machine
end

