-- ==== Sys2Proof/Proofs/CrcGenerator.lean ====
section
/-! PROOF. The CRC-8 generator. Its table is linear and has one zero, so it is a bijection. So the CRC loop is linear,
and changing one byte of its input changes its result. CRC_CHECK accepts a frame exactly when the CRC of all seven bytes is
0x00, which turns the corruption of any one byte into the same argument (40_crc.md R81 to R89). -/
namespace Sys2Proof.Machine

/-! TABLE -/

/-- TABLE's only zero is at index 0. -/
theorem eq_zero_of_tableAt_eq_zero : ∀ k : Byte, tableAt k = 0 → k = 0 := by decide

/-- A linear map with one zero is injective. -/
theorem tableAt_injective : Function.Injective tableAt := by
  intro a b h
  have hz : tableAt (a ^^^ b) = 0 := by
    rw [tableAt_xor, h]
    exact BitVec.xor_self
  exact BitVec.xor_eq_zero_iff.mp (eq_zero_of_tableAt_eq_zero _ hz)

theorem crcTable_length : crcTable.length = 256 := by
  have h0 : crcRows0.length = 64 := rfl
  have h4 : crcRows4.length = 64 := rfl
  have h8 : crcRows8.length = 64 := rfl
  have hC : crcRowsC.length = 64 := rfl
  rw [crcTable, List.length_append, List.length_append, List.length_append, h0, h4, h8, hC]

/-- Settles O33: on a finite type an injective function is bijective. -/
theorem tableIsABijection : Obligations.TableIsABijection :=
  ⟨crcTable_length, Finite.injective_iff_bijective.mp tableAt_injective⟩

/-! The CRC loop -/

/-- A table step is linear in the register and the byte together. -/
theorem crcNext_xor (c d a e : Byte) : crcNext (c ^^^ d) (a ^^^ e) = crcNext c a ^^^ crcNext d e := by
  have hxor : (c ^^^ d) ^^^ (a ^^^ e) = (c ^^^ a) ^^^ (d ^^^ e) := by ac_rfl
  rw [crcNext, hxor, tableAt_xor]
  rfl

theorem crcNext_right_injective (c : Byte) : Function.Injective (crcNext c) :=
  fun _ _ h => (BitVec.xor_right_inj c).mp (tableAt_injective h)

theorem crcNext_left_injective (b : Byte) : Function.Injective (crcNext · b) :=
  fun _ _ h => (BitVec.xor_left_inj b).mp (tableAt_injective h)

/-- A step leaves 0x00 exactly when the byte is the register's value. -/
theorem crcNext_eq_zero_iff {c b : Byte} : crcNext c b = 0 ↔ c = b := by
  constructor
  · exact fun h => BitVec.xor_eq_zero_iff.mp (eq_zero_of_tableAt_eq_zero _ h)
  · rintro rfl
    rw [crcNext, BitVec.xor_self]
    rfl

/-- The loop is linear in the register and the bytes together. -/
theorem crcFrom_zipWith_xor (c d : Byte) {a e : List Byte} (h : a.length = e.length) :
    crcFrom (c ^^^ d) (List.zipWith (· ^^^ ·) a e) = crcFrom c a ^^^ crcFrom d e := by
  induction a generalizing c d e with
  | nil =>
    cases e with
    | nil => rfl
    | cons y e => exact absurd h (by simp)
  | cons x a ih =>
    cases e with
    | nil => exact absurd h (by simp)
    | cons y e =>
      rw [List.zipWith_cons_cons, crcFrom_cons, crcFrom_cons, crcFrom_cons, crcNext_xor]
      exact ih _ _ (Nat.succ.inj h)

/-- The register's first value is never lost. -/
theorem crcFrom_left_injective (bs : List Byte) : Function.Injective (crcFrom · bs) := by
  induction bs with
  | nil => exact fun _ _ h => h
  | cons b bs ih => exact ih.comp (crcNext_left_injective b)

/-- Another byte at one place gives another CRC (40_crc.md R89 item 5). -/
theorem crcFrom_set_ne (c : Byte) {bs : List Byte} {i : Nat} {v : Byte} (hi : i < bs.length) (hv : v ≠ bs[i]) :
    crcFrom c (bs.set i v) ≠ crcFrom c bs := by
  induction bs generalizing c i with
  | nil => exact absurd hi (Nat.not_lt_zero i)
  | cons b bs ih =>
    cases i with
    | zero => exact fun h => hv (crcNext_right_injective c (crcFrom_left_injective bs h))
    | succ i => exact ih _ (Nat.lt_of_succ_lt_succ hi) hv

/-- A seventh byte, or any last one, that is the CRC of those before it leaves 0x00, and no other does (R89 item 3). -/
theorem crc8_concat_eq_zero_iff {bs : List Byte} {b : Byte} : crc8 (bs ++ [b]) = 0 ↔ crc8 bs = b := by
  rw [crc8, crcFrom_append]
  exact crcNext_eq_zero_iff

/-- Settles O34: the two loops start from 0xFF and 0x00, whose XOR is 0xFF. -/
theorem crcOfXorIsXorOfCrcs : Obligations.CrcOfXorIsXorOfCrcs :=
  fun _ _ h => crcFrom_zipWith_xor crcInitValue 0x00 h

/-! The frame's CRC -/

/-- All seven bytes of a frame: the six that the check covers and the check byte. -/
def frameBytes7 (m : Memory) : List Byte := frameBytes6 m ++ [m.read 6]

theorem getElem_frameBytes7 (m : Memory) {i : Nat} (hi : i < (frameBytes7 m).length) :
    (frameBytes7 m)[i] = m.read i := by
  have h7 : i < 7 := hi
  interval_cases i <;> rfl

/-- A write to the frame replaces the byte at its index. -/
theorem frameBytes7_write (m : Memory) {i : Nat} (hi : i < 7) (v : Byte) :
    frameBytes7 (m.write i v) = (frameBytes7 m).set i v := by
  interval_cases i <;> simp [frameBytes7, frameBytes6]

/-- The loop of R87, written as a fold over the indices, is the CRC of the six bytes. -/
theorem foldl_read_eq_crc8 (m : Memory) :
    [0, 1, 2, 3, 4, 5].foldl (fun c i => tableAt (c ^^^ m.read i)) 0xFF = crc8 (frameBytes6 m) := by
  rw [crc8, crcFrom_eq_foldl]
  rfl

/-- CRC_CHECK tests whether the CRC of all seven bytes is 0x00. -/
theorem exec_crcCheck_residue (s : State) :
    exec .crcCheck s = .next (s.setRes (resOfBool (crc8 (frameBytes7 s.frame) == 0))) := by
  have h : (crc8 (frameBytes6 s.frame) == s.frame.read 6) = (crc8 (frameBytes7 s.frame) == 0) := by
    rw [Bool.eq_iff_iff, beq_iff_eq, beq_iff_eq]
    exact crc8_concat_eq_zero_iff.symm
  rw [exec_crcCheck, h]

/-- A frame that CRC_CHECK accepts has residue 0x00. -/
theorem crc8_frameBytes7_of_crcCheck {s t : State} (h : exec .crcCheck s = .next t) (ht : t.res = 1) :
    crc8 (frameBytes7 s.frame) = 0 := by
  rw [exec_crcCheck_residue] at h
  cases h
  exact beq_iff_eq.mp (resOfBool_eq_one.mp ht)

/-- A frame whose residue is not 0x00 is refused. -/
theorem exec_crcCheck_of_residue_ne {s : State} (h : crc8 (frameBytes7 s.frame) ≠ 0) :
    exec .crcCheck s = .next (s.setRes 0) := by
  rw [exec_crcCheck_residue, beq_false_of_ne h]
  rfl

/-- Settles O36: the residue of an accepted frame. -/
theorem validFrameHasZeroResidue : Obligations.ValidFrameHasZeroResidue :=
  fun _ _ h ht => crc8_frameBytes7_of_crcCheck h ht

/-- Settles O37: the residue was 0x00 before the write, and the byte written makes it another. -/
theorem singleByteCorruptionIsDetected : Obligations.SingleByteCorruptionIsDetected := by
  rintro s idx v hidx hv ⟨t, ht, hres⟩
  have hi : idx.toNat < (frameBytes7 s.frame).length := idx_lt_seven idx hidx
  have hne : crc8 (frameBytes7 (s.frame.write idx.toNat v)) ≠ 0 := by
    rw [frameBytes7_write _ (idx_lt_seven idx hidx), ← crc8_frameBytes7_of_crcCheck ht hres]
    exact crcFrom_set_ne _ hi (by rwa [getElem_frameBytes7])
  exact ⟨_, _, exec_frameWrite_legal s hidx v, exec_crcCheck_of_residue_ne hne, rfl⟩

/-! The commands -/

/-- A command that gives RES its value has changed nothing else. -/
theorem onlyResChanged_setRes (s : State) (r : ResWord) : OnlyResChanged s (s.setRes r) :=
  ⟨rfl, fun _ => rfl, rfl, rfl, rfl, rfl, rfl⟩

/-- Settles O27: CRC_INIT is the write of 0xFF to CRC. -/
theorem crcInitRestartsTheAccumulator : Obligations.CrcInitRestartsTheAccumulator :=
  ⟨rfl, opDecodesTo_of_usedBits fun _ _ => by simp [usedBits, encode],
    fun s => ⟨_, exec_crcInit s, rfl, fun _ => rfl, rfl, rfl, rfl, rfl, rfl, rfl⟩⟩

/-- Settles O28: CRC_STEP is the write of the table step to CRC and RES. -/
theorem crcStepFoldsOneByte : Obligations.CrcStepFoldsOneByte :=
  ⟨cmdWord_zero_eq_or _, opDecodesTo_of_usedBits fun _ _ => by simp [usedBits, encode],
    fun d s => ⟨_, exec_crcStep s d, rfl, resOfByte_eq_append _, fun _ => rfl, rfl, rfl, rfl, rfl, rfl⟩⟩

/-- Settles O29: CRC_READ is the write of CRC to RES. -/
theorem crcReadCopiesCrc : Obligations.CrcReadCopiesCrc :=
  ⟨rfl, opDecodesTo_of_usedBits fun _ _ => by simp [usedBits, encode],
    fun s => ⟨_, exec_crcRead s, resOfByte_eq_append _, onlyResChanged_setRes s _⟩⟩

/-- Settles O30: CRC_FRAME is the write of the six bytes' CRC to RES. -/
theorem crcFrameFoldsTheFirstSixBytes : Obligations.CrcFrameFoldsTheFirstSixBytes := by
  refine ⟨rfl, opDecodesTo_of_usedBits fun _ _ => by simp [usedBits, encode],
    fun s => ?_⟩
  rw [foldl_read_eq_crc8]
  exact ⟨_, exec_crcFrame s, resOfByte_eq_append _, onlyResChanged_setRes s _⟩

/-- Settles O31: the comparison is an equality test of bytes. -/
theorem crcCheckComparesWithByteSix : Obligations.CrcCheckComparesWithByteSix := by
  refine ⟨rfl, opDecodesTo_of_usedBits fun _ _ => by simp [usedBits, encode],
    fun s => ?_⟩
  rw [foldl_read_eq_crc8]
  exact ⟨_, exec_crcCheck s, fun h => by simp [resOfBool, h], fun h => by simp [resOfBool, h],
    onlyResChanged_setRes s _⟩

/-- Settles O32: the table is the shift construction, and CRC_STEP is one look-up. -/
theorem crcStepIsEightShiftSteps : Obligations.CrcStepIsEightShiftSteps :=
  ⟨tableAt_eq_crcShift8, fun d s => ⟨_, exec_crcStep s d, tableAt_eq_crcShift8 _⟩⟩

end Sys2Proof.Machine
end

