-- ==== Sys2Proof/Proofs/StatusDecoder.lean ====
section
/-! PROOF. The status-byte decoder: what a test of a STAT field leaves in RES, and the three mode tests as tests of the
mode that `modeOf` names (41_status.md R101, R103 to R111). -/
namespace Sys2Proof.Machine

/-! The test results in RES -/

/-- A one-bit field tested for 1 stands in RES as it is, zero-extended (10_state.md R24). -/
theorem resOfBool_beq_one : ∀ b : BitVec 1, resOfBool (b == 1) = (0#63) ++ b := by decide

/-- A comparison of the mode field in RES. -/
theorem resOfBool_beq (m n : BitVec 2) : resOfBool (m == n) = if m = n then 1 else 0 := by
  simp [resOfBool]

theorem resOfBool_isCalTest (st : Byte) : resOfBool (isCalTest st) = (0#63) ++ st.extractLsb' 3 1 := by
  obtain ⟨-, hcal, -⟩ := statusTests_fields st
  rw [hcal]
  exact resOfBool_beq_one _

theorem resOfBool_isNormalTest (st : Byte) :
    resOfBool (isNormalTest st) = if st.extractLsb' 5 2 = 0b00 then 1 else 0 := by
  obtain ⟨-, -, hnormal, -⟩ := statusTests_fields st
  rw [hnormal]
  exact resOfBool_beq _ _

theorem resOfBool_isCyclicTest (st : Byte) :
    resOfBool (isCyclicTest st) = if st.extractLsb' 5 2 = 0b01 then 1 else 0 := by
  obtain ⟨-, -, -, hcyclic, -⟩ := statusTests_fields st
  rw [hcyclic]
  exact resOfBool_beq _ _

/-- The command modes 10 and 11 are those whose high bit is 1. -/
theorem beq_command_modes : ∀ m : BitVec 2, (m == 0b10 || m == 0b11) = (m.extractLsb' 1 1 == 1) := by decide

/-- STAT[6] is the high bit of STAT[6:5]. -/
theorem extractLsb'_statMode (st : Byte) : (statMode st).extractLsb' 1 1 = st.extractLsb' 6 1 := by
  ext i hi
  obtain rfl : i = 0 := Nat.lt_one_iff.mp hi
  simp [statMode]

theorem resOfBool_isCommandTest (st : Byte) : resOfBool (isCommandTest st) = (0#63) ++ st.extractLsb' 6 1 := by
  obtain ⟨-, -, -, -, hcommand⟩ := statusTests_fields st
  rw [hcommand, beq_command_modes, extractLsb'_statMode]
  exact resOfBool_beq_one _

/-! The commands -/

/-- A command without operands is selected by its OP alone (30_encoding.md R64). -/
theorem opDecodesTo_of_opOnly {op : Op} {i : Instr} (hused : usedBits i = 0xF800#16)
    (henc : encode i = cmdWord op 0#3 0#8) : OpDecodesTo op (fun _ _ => i) :=
  opDecodesTo_of_usedBits fun _ _ => by rw [hused, henc, and_opMask, opField_cmdWord]

/-- A command that gives STAT its value has changed nothing else. -/
theorem onlyStatChanged_setStat (s : State) (v : Byte) : OnlyStatChanged s (s.setStat v) :=
  ⟨rfl, fun _ => rfl, rfl, rfl, rfl, rfl, rfl⟩

/-- Settles O38: STAT_LOAD is the write of DATA to STAT. -/
theorem statLoadTakesData : Obligations.StatLoadTakesData :=
  ⟨cmdWord_zero_eq_or _, opDecodesTo_of_usedBits fun _ _ => by simp [usedBits, encode],
    fun d s => ⟨_, exec_statLoad s d, rfl, onlyStatChanged_setStat s d⟩⟩

/-- Settles O39: STAT_FROM_FRAME is the write of FRAME[0] to STAT. -/
theorem statFromFrameTakesByteZero : Obligations.StatFromFrameTakesByteZero :=
  ⟨rfl, opDecodesTo_of_opOnly rfl rfl, fun s => ⟨_, exec_statFromFrame s, rfl, onlyStatChanged_setStat s _⟩⟩

/-- Settles O40: STAT_READ is the write of STAT to RES. -/
theorem statReadCopiesStat : Obligations.StatReadCopiesStat :=
  ⟨rfl, opDecodesTo_of_opOnly rfl rfl,
    fun s => ⟨_, exec_statRead s, resOfByte_eq_append _, onlyResChanged_setRes s _⟩⟩

/-- Settles O41: each command is the write of its test's result to RES. -/
theorem busyAndCalibrationReadTheirBits : Obligations.BusyAndCalibrationReadTheirBits :=
  ⟨rfl, opDecodesTo_of_opOnly rfl rfl, rfl, opDecodesTo_of_opOnly rfl rfl,
    fun s => ⟨_, exec_isBusy s, resOfBool_isBusyTest _, onlyResChanged_setRes s _⟩,
    fun s => ⟨_, exec_isCal s, resOfBool_isCalTest _, onlyResChanged_setRes s _⟩⟩

/-- Settles O42: each command is the write of its test's result to RES. -/
theorem modeCommandsTestTheModeField : Obligations.ModeCommandsTestTheModeField :=
  ⟨rfl, opDecodesTo_of_opOnly rfl rfl, rfl, opDecodesTo_of_opOnly rfl rfl, rfl, opDecodesTo_of_opOnly rfl rfl,
    fun s => ⟨_, exec_isNormal s, resOfBool_isNormalTest _, onlyResChanged_setRes s _⟩,
    fun s => ⟨_, exec_isCyclic s, resOfBool_isCyclicTest _, onlyResChanged_setRes s _⟩,
    fun s => ⟨_, exec_isCommand s, resOfBool_isCommandTest _, onlyResChanged_setRes s _⟩⟩

/-! The named mode -/

/-- The tests of the mode field tell its named mode (R101). -/
theorem beq_modes_eq_modeOf : ∀ m : BitVec 2,
    (m == 0b00) = (modeOf m == .normal) ∧ (m == 0b01) = (modeOf m == .cyclic) ∧
    (m == 0b10 || m == 0b11) = (modeOf m == .command) := by decide

/-- The three mode tests are the tests of the named mode against each of its values (R111). -/
theorem modeTests_eq_modeOf (st : Byte) :
    isNormalTest st = (modeOf (statMode st) == .normal) ∧ isCyclicTest st = (modeOf (statMode st) == .cyclic) ∧
    isCommandTest st = (modeOf (statMode st) == .command) := by
  obtain ⟨-, -, hnormal, hcyclic, hcommand⟩ := statusTests_fields st
  rw [hnormal, hcyclic, hcommand]
  exact beq_modes_eq_modeOf _

/-- Settles O43: the named mode is one of three, and each command tests it against its own. -/
theorem exactlyOneModeCommandGivesOne : Obligations.ExactlyOneModeCommandGivesOne := by
  intro s tn tc tm hn hc hm
  obtain ⟨hnormal, hcyclic, hcommand⟩ := modeTests_eq_modeOf s.stat
  rw [exec_isNormal, hnormal] at hn
  rw [exec_isCyclic, hcyclic] at hc
  rw [exec_isCommand, hcommand] at hm
  cases hn
  cases hc
  cases hm
  cases modeOf (statMode s.stat) with
  | normal | cyclic | command => rfl

end Sys2Proof.Machine
end

