-- ==== Sys2Proof/Proofs/FrameUnpacker.lean ====
section
/-! PROOF. The frame buffer and the bit-unpacker (42_frame.md): the words of the commands that take IDX, what BAD_INDEX
leaves, the frame that FRAME_LOAD makes, and the two fields as concatenations of the frame's bits. -/
namespace Sys2Proof.Machine

/-! The words -/

/-- Words are put together field by field. -/
theorem cmdWord_or (op op' : Op) (idx idx' : Idx) (data data' : Byte) :
    cmdWord op idx data ||| cmdWord op' idx' data' = cmdWord (op ||| op') (idx ||| idx') (data ||| data') := by
  rw [cmdWord, cmdWord, BitVec.or_append, BitVec.or_append]
  rfl

/-- IDX shifted to its place is the word that holds nothing else (30_encoding.md R61). -/
theorem setWidth_shiftLeft_eq_cmdWord : ∀ idx : Idx, idx.setWidth 16 <<< 8 = cmdWord 0#5 idx 0#8 := by decide

/-- A word is OP's word with IDX and DATA put in by OR. -/
theorem cmdWord_eq_or (op : Op) (idx : Idx) (data : Byte) :
    cmdWord op idx data = cmdWord op 0#3 0#8 ||| idx.setWidth 16 <<< 8 ||| data.setWidth 16 := by
  have hop : cmdWord op idx 0#8 = cmdWord op 0#3 0#8 ||| cmdWord 0#5 idx 0#8 := by simp [cmdWord_or]
  have hdata : cmdWord 0#5 0#3 data = data.setWidth 16 := (cmdWord_zero_eq_or 0#5 data).trans BitVec.zero_or
  rw [setWidth_shiftLeft_eq_cmdWord, ← hop, ← hdata, cmdWord_or]
  simp

/-! BAD_INDEX -/

/-- BAD_INDEX writes BSR's three fields when it is the first error, and nothing otherwise (60_exceptions.md R171). -/
theorem raise_badIndex_effect {s t : State} {op : Op} (h : t = s.raise .badIndex op) :
    (bsrErr s.bsr = 0 → t.bsr = op ++ (0b10#2) ++ (1#1)) ∧ (bsrErr s.bsr = 1 → t.bsr = s.bsr) ∧
    t.crc = s.crc ∧ FrameKept s t ∧ t.stat = s.stat ∧ t.res = s.res ∧ t.fpFmt = s.fpFmt ∧ HostSideKept s t := by
  subst h
  exact ⟨bsrRaise_first, bsrRaise_later, rfl, fun _ => rfl, rfl, rfl, rfl, rfl, rfl⟩

/-! The frame -/

/-- A command that gives FRAME new contents has changed nothing else. -/
theorem onlyFrameChanged_setFrame (s : State) (m : Memory) : OnlyFrameChanged s (s.setFrame m) :=
  ⟨rfl, rfl, rfl, rfl, rfl, rfl, rfl⟩

/-- The frame made of the frame input reads as its bytes (20_memory.md R42). -/
theorem read_ofBytesFrom_frameInBytes (f : FrameIn) {i : Nat} (hi : i < 7) :
    (Memory.ofBytesFrom 0 (frameInBytes f)).read i = f.extractLsb' (48 - 8 * i) 8 := by
  rw [Memory.read_ofBytesFrom, if_pos (Nat.zero_le i)]
  interval_cases i <;> rfl

/-- Settles O45: a write at a legal index is read back there and nowhere else; index 7 raises BAD_INDEX. -/
theorem frameWriteStoresOneByte : Obligations.FrameWriteStoresOneByte :=
  ⟨cmdWord_eq_or _, opDecodesTo_of_usedBits fun _ _ => by simp [usedBits, encode],
    fun i d s hi => ⟨_, exec_frameWrite_legal s hi d, Memory.read_write_same _ _ _,
      fun a ha => Memory.read_write_other _ _ _ a ha, onlyFrameChanged_setFrame s _⟩,
    fun d s => ⟨_, exec_frameWrite_seven s d, raise_badIndex_effect rfl⟩⟩

/-- Settles O46: the frame that FRAME_LOAD makes reads as the input's bytes. -/
theorem frameLoadTakesTheFrameInput : Obligations.FrameLoadTakesTheFrameInput :=
  ⟨rfl, opDecodesTo_of_opOnly rfl rfl, fun s => ⟨_, exec_frameLoad s,
    fun _ hi => read_ofBytesFrom_frameInBytes s.frameIn hi, onlyFrameChanged_setFrame s _⟩⟩

/-- Settles O47: at a legal index the write of the byte to RES; index 7 raises BAD_INDEX. -/
theorem frameReadCopiesOneByte : Obligations.FrameReadCopiesOneByte :=
  ⟨fun i => (cmdWord_eq_or _ i 0#8).trans BitVec.or_zero,
    opDecodesTo_of_usedBits fun _ _ => by simp [usedBits, encode],
    fun i s hi => ⟨_, exec_frameRead_legal s hi, resOfByte_eq_append _, onlyResChanged_setRes s _⟩,
    fun s => ⟨_, exec_frameRead_seven s, raise_badIndex_effect rfl⟩⟩

/-- Settles O44: the frame that FRAME_CLEAR leaves reads 0x00 everywhere. -/
theorem frameClearZeroesEveryByte : Obligations.FrameClearZeroesEveryByte :=
  ⟨rfl, opDecodesTo_of_opOnly rfl rfl,
    fun s => ⟨_, exec_frameClear s, Memory.read_zeros, onlyFrameChanged_setFrame s _⟩⟩

/-! The bit-unpacker -/

/-- The humidity field in RES, bit by bit (42_frame.md R120). -/
theorem resOfField_humBits (m : Memory) :
    resOfField (humBits m) = (0#44) ++ m.read 1 ++ m.read 2 ++ (m.read 3).extractLsb' 4 4 := by
  have hhigh : ((m.read 3).extractLsb' 4 4).toNat = (m.read 3).toNat / 16 := by
    have := (m.read 3).isLt
    rw [BitVec.extractLsb'_toNat, Nat.shiftRight_eq_div_pow]
    omega
  apply BitVec.eq_of_toNat_eq
  rw [resOfField_toNat, humBits_toNat, toNat_append_eq, toNat_append_eq, toNat_append_eq, hhigh, BitVec.toNat_zero]
  omega

/-- The temperature field in RES, bit by bit (42_frame.md R121). -/
theorem resOfField_tempBits (m : Memory) :
    resOfField (tempBits m) = (0#44) ++ (m.read 3).extractLsb' 0 4 ++ m.read 4 ++ m.read 5 := by
  have hlow : ((m.read 3).extractLsb' 0 4).toNat = (m.read 3).toNat % 16 :=
    BitVec.extractLsb'_toNat 0 4 _
  apply BitVec.eq_of_toNat_eq
  rw [resOfField_toNat, tempBits_toNat, toNat_append_eq, toNat_append_eq, toNat_append_eq, hlow, BitVec.toNat_zero]
  omega

/-- The low 20 bits of RES hold the whole of a 20-bit field. -/
theorem toNat_extractLsb'_resOfField {v : BitVec 32} (hv : v.toNat < 2 ^ 20) :
    ((resOfField v).extractLsb' 0 20).toNat = v.toNat := by
  rw [BitVec.extractLsb'_toNat, resOfField_toNat, Nat.shiftRight_zero, Nat.mod_eq_of_lt hv]

/-- Settles O48: HUM_BITS is the write of the humidity field to RES. -/
theorem humBitsAssemblesTheField : Obligations.HumBitsAssemblesTheField :=
  ⟨rfl, opDecodesTo_of_opOnly rfl rfl,
    fun s => ⟨_, exec_humBits s, resOfField_humBits _, onlyResChanged_setRes s _⟩⟩

/-- Settles O49: TEMP_BITS is the write of the temperature field to RES. -/
theorem tempBitsAssemblesTheField : Obligations.TempBitsAssemblesTheField :=
  ⟨rfl, opDecodesTo_of_opOnly rfl rfl,
    fun s => ⟨_, exec_tempBits s, resOfField_tempBits _, onlyResChanged_setRes s _⟩⟩

/-- Settles O50: the two fields as numbers divide FRAME[3] into its quotient and its remainder by 16. -/
theorem theTwoFieldsAreTheFortyBits : Obligations.TheTwoFieldsAreTheFortyBits := by
  intro s th tt hh ht
  cases hh
  cases ht
  apply BitVec.eq_of_toNat_eq
  simp only [State.setRes_res, toNat_append_eq, toNat_extractLsb'_resOfField (humBits_lt s.frame),
    toNat_extractLsb'_resOfField (tempBits_lt s.frame), humBits_toNat, tempBits_toNat]
  omega

end Sys2Proof.Machine
end

