-- ==== Sys2Proof/Proofs/Converter.lean ====
section
/-! PROOF. The physical-unit converter (43_convert.md). The machine's operations on exact values are the operations on
rationals, and each is rounded once to the format. The two results stay in the range where a format represents them, and
their numerators over 2^20 are monotone in the field, so bounds are read off at the field's two ends. -/
namespace Sys2Proof.Machine

/-! The operations on exact values, as operations on rationals -/

@[simp] theorem toRat_exactOfNat (n : ℕ) : (exactOfNat n).toRat = n := by
  simp [Exact.toRat, exactOfNat]

@[simp] theorem toRat_divPow2 (v : Exact) (k : ℕ) : (v.divPow2 k).toRat = v.toRat / 2 ^ k := by
  rw [Exact.toRat, Exact.toRat, Exact.divPow2, pow_add, div_div]

@[simp] theorem toRat_mulNat (v : Exact) (c : ℕ) : (v.mulNat c).toRat = v.toRat * c := by
  rw [Exact.toRat, Exact.toRat, Exact.mulNat, Int.cast_mul, Int.cast_natCast, mul_div_right_comm]

@[simp] theorem toRat_subNat (v : Exact) (c : ℕ) : (v.subNat c).toRat = v.toRat - c := by
  simp only [Exact.toRat, Exact.subNat]
  push_cast
  rw [sub_div, mul_div_cancel_right₀ _ (by positivity)]

/-- Values of one scale are ordered as their numerators. -/
theorem toRat_le_toRat {v w : Exact} (hs : v.scale = w.scale) (h : v.num ≤ w.num) : v.toRat ≤ w.toRat := by
  rw [Exact.toRat, Exact.toRat, hs]
  exact div_le_div_of_nonneg_right (Int.cast_le.mpr h) (by positivity)

theorem toRat_lt_of_num_lt {v : Exact} {c : ℕ} (h : v.num < c * 2 ^ v.scale) : v.toRat < c :=
  (div_lt_iff₀ (by positivity)).mpr (by exact_mod_cast h)

/-! The operations of the machine, each rounded (43_convert.md R141) -/

/-- A rounded value in range is what its bit pattern stands for. -/
theorem floatValue_rne {f : FpFmt} {v : Exact} (h : InRange v) :
    floatValue f (resOfFloat f (rne f v)) = (rne f v).toRat :=
  (resOfFloat_spec (rne_representable h)).1

theorem isRounded_exactOfNat {f : FpFmt} {n : ℕ} (h : InRange (exactOfNat n)) :
    IsRounded f n (resOfFloat f (rne f (exactOfNat n))) :=
  toRat_exactOfNat n ▸ rne_isRounded h

theorem isRounded_divPow2 {f : FpFmt} {v : Exact} {k : ℕ} (hv : InRange v) (h : InRange ((rne f v).divPow2 k)) :
    IsRounded f (floatValue f (resOfFloat f (rne f v)) / 2 ^ k) (resOfFloat f (rne f ((rne f v).divPow2 k))) := by
  rw [floatValue_rne hv, ← toRat_divPow2]
  exact rne_isRounded h

theorem isRounded_mulNat {f : FpFmt} {v : Exact} {c : ℕ} (hv : InRange v) (h : InRange ((rne f v).mulNat c)) :
    IsRounded f (floatValue f (resOfFloat f (rne f v)) * c) (resOfFloat f (rne f ((rne f v).mulNat c))) := by
  rw [floatValue_rne hv, ← toRat_mulNat]
  exact rne_isRounded h

theorem isRounded_subNat {f : FpFmt} {v : Exact} {c : ℕ} (hv : InRange v) (h : InRange ((rne f v).subNat c)) :
    IsRounded f (floatValue f (resOfFloat f (rne f v)) - c) (resOfFloat f (rne f ((rne f v).subNat c))) := by
  rw [floatValue_rne hv, ← toRat_subNat]
  exact rne_isRounded h

/-! The operations stay in range -/

/-- Rounding goes at most to the next power of two, so it doubles a number at most. -/
theorem roundSig_le_two_mul {p : ℕ} (hp : 1 ≤ p) (n : ℕ) : roundSig p n ≤ 2 * n := by
  by_cases h : n < 2 ^ p
  · rw [roundSig_of_lt h]
    omega
  · have hn0 : n ≠ 0 := by have := Nat.two_pow_pos p; omega
    obtain ⟨-, -, -, -, -, hhi⟩ := roundSig_spec hp (Nat.not_lt.mp h)
    have hlo := Nat.log2_self_le hn0
    rw [pow_succ] at hhi
    omega

theorem natAbs_rne_le (f : FpFmt) (v : Exact) : (rne f v).num.natAbs ≤ 2 * v.num.natAbs := by
  rw [rne_natAbs]
  exact roundSig_le_two_mul (one_le_precision f) _

theorem natAbs_mulNat (v : Exact) (c : ℕ) : (v.mulNat c).num.natAbs = v.num.natAbs * c :=
  Int.natAbs_mul v.num c

/-- The operands that the humidity function rounds are in range. -/
theorem humidity_inRange (f : FpFmt) {h : ℕ} (hh : h < 2 ^ 20) :
    InRange (exactOfNat h) ∧ InRange ((rne f (exactOfNat h)).divPow2 20) ∧
      InRange ((rne f ((rne f (exactOfNat h)).divPow2 20)).mulNat 100) := by
  have hx : (rne f (exactOfNat h)).num.natAbs ≤ 2 * h := natAbs_rne_le f (exactOfNat h)
  have hy : (rne f ((rne f (exactOfNat h)).divPow2 20)).num.natAbs ≤ 2 * (rne f (exactOfNat h)).num.natAbs :=
    natAbs_rne_le f ((rne f (exactOfNat h)).divPow2 20)
  refine ⟨⟨(by decide : 0 ≤ 100), ?_⟩, ⟨(by decide : 20 ≤ 100), ?_⟩, ⟨(by decide : 20 ≤ 100), ?_⟩⟩
  · exact lt_trans hh (by decide)
  · exact lt_of_le_of_lt hx (by omega)
  · rw [natAbs_mulNat]
    omega

/-- The operands that the temperature function rounds are in range. -/
theorem temperature_inRange (f : FpFmt) {t : ℕ} (ht : t < 2 ^ 20) :
    InRange ((exactOfNat t).divPow2 20) ∧ InRange ((rne f ((exactOfNat t).divPow2 20)).mulNat 200) ∧
      InRange ((rne f ((rne f ((exactOfNat t).divPow2 20)).mulNat 200)).subNat 50) := by
  have hy : (rne f ((exactOfNat t).divPow2 20)).num.natAbs ≤ 2 * t := natAbs_rne_le f ((exactOfNat t).divPow2 20)
  have ha := natAbs_rne_le f ((rne f ((exactOfNat t).divPow2 20)).mulNat 200)
  rw [natAbs_mulNat] at ha
  refine ⟨⟨(by decide : 20 ≤ 100), ?_⟩, ⟨(by decide : 20 ≤ 100), ?_⟩, ⟨(by decide : 20 ≤ 100), ?_⟩⟩
  · exact lt_trans ht (by decide)
  · rw [natAbs_mulNat]
    omega
  · show ((rne f ((rne f ((exactOfNat t).divPow2 20)).mulNat 200)).num - (50 : ℕ) * 2 ^ 20).natAbs < 2 ^ 100
    omega

/-! The two results -/

theorem humidityPercent_representable (f : FpFmt) {h : ℕ} (hh : h < 2 ^ 20) : Representable f (humidityPercent f h) :=
  rne_representable (humidity_inRange f hh).2.2

theorem temperatureCelsius_representable (f : FpFmt) {t : ℕ} (ht : t < 2 ^ 20) :
    Representable f (temperatureCelsius f t) :=
  rne_representable (temperature_inRange f ht).2.2

theorem floatValue_humidityPercent (f : FpFmt) {h : ℕ} (hh : h < 2 ^ 20) :
    floatValue f (resOfFloat f (humidityPercent f h)) = (humidityPercent f h).toRat :=
  floatValue_rne (humidity_inRange f hh).2.2

theorem floatValue_temperatureCelsius (f : FpFmt) {t : ℕ} (ht : t < 2 ^ 20) :
    floatValue f (resOfFloat f (temperatureCelsius f t)) = (temperatureCelsius f t).toRat :=
  floatValue_rne (temperature_inRange f ht).2.2

/-- Of a representable value the zero is +0, and no other is a zero or a subnormal. -/
theorem resOfFloat_ordinary {f : FpFmt} {v : Exact} (h : Representable f v) :
    FloatFinite f (resOfFloat f v) ∧ (floatExp f (resOfFloat f v) = 0 →
      floatFrac f (resOfFloat f v) = 0 ∧ floatSign f (resOfFloat f v) = false) := by
  obtain ⟨-, hfin, -, -, hnz⟩ := resOfFloat_spec h
  refine ⟨hfin, fun he => ?_⟩
  have hv : v.num = 0 := not_not.mp fun hv => (hnz hv).1 he
  rw [resOfFloat_zero hv]
  cases f <;> exact ⟨rfl, rfl⟩

/-- A representable value that stands for zero is +0 (43_convert.md R145). -/
theorem floatSign_of_floatValue_eq_zero {f : FpFmt} {v : Exact} (h : Representable f v)
    (h0 : floatValue f (resOfFloat f v) = 0) : floatSign f (resOfFloat f v) = false := by
  obtain ⟨hval, -, -, hsign, -⟩ := resOfFloat_spec h
  have hv : v.num = 0 := by simpa [hval, Exact.toRat] using h0
  rw [hsign, hv]
  rfl

theorem humidityPercent_mono (f : FpFmt) {h h' : ℕ} (hle : h ≤ h') (hh' : h' < 2 ^ 20) :
    (humidityPercent f h).toRat ≤ (humidityPercent f h').toRat := by
  rw [humidityPercent_eq f (hle.trans_lt hh'), humidityPercent_eq f hh']
  exact toRat_le_toRat rfl (roundInt_mono f (by omega))

theorem temperatureCelsius_mono (f : FpFmt) {t t' : ℕ} (hle : t ≤ t') (ht' : t' < 2 ^ 20) :
    (temperatureCelsius f t).toRat ≤ (temperatureCelsius f t').toRat := by
  rw [temperatureCelsius_eq f (hle.trans_lt ht'), temperatureCelsius_eq f ht']
  have ha := roundInt_mono f (show (t : ℤ) * 200 ≤ t' * 200 by omega)
  exact toRat_le_toRat rfl (roundInt_mono f (by omega))

/-- The humidity is no negative number, and so no negative zero. -/
theorem humidityPercent_num_nonneg (f : FpFmt) {h : ℕ} (hh : h < 2 ^ 20) : 0 ≤ (humidityPercent f h).num := by
  have hzero : roundInt f 0 = 0 := by simp [roundInt]
  have hmono : roundInt f 0 ≤ roundInt f (h * 100) := roundInt_mono f (by omega)
  rw [humidityPercent_eq f hh]
  rwa [hzero] at hmono

/-- The humidity's bounds are at the two ends of its field (43_convert.md R144, R146). -/
theorem humidityPercent_range (f : FpFmt) {h : ℕ} (hh : h < 2 ^ 20) :
    0 ≤ (humidityPercent f h).toRat ∧ (humidityPercent f h).toRat < 100 := by
  have hmax : (humidityPercent f 0xFFFFF).num < (100 : ℕ) * 2 ^ (humidityPercent f 0xFFFFF).scale := by
    cases f <;> decide
  constructor
  · exact div_nonneg (Int.cast_nonneg (humidityPercent_num_nonneg f hh)) (by positivity)
  · calc (humidityPercent f h).toRat ≤ (humidityPercent f 0xFFFFF).toRat :=
          humidityPercent_mono f (Nat.le_of_lt_succ hh) (by decide)
      _ < 100 := toRat_lt_of_num_lt hmax

/-- The temperature's bounds are at the two ends of its field (43_convert.md R145, R146). -/
theorem temperatureCelsius_range (f : FpFmt) {t : ℕ} (ht : t < 2 ^ 20) :
    -50 ≤ (temperatureCelsius f t).toRat ∧ (temperatureCelsius f t).toRat < 150 := by
  have hmin : temperatureCelsius f 0 = ⟨-50 * 2 ^ 20, 20⟩ := by cases f <;> decide
  have hmax : (temperatureCelsius f 0xFFFFF).num < (150 : ℕ) * 2 ^ (temperatureCelsius f 0xFFFFF).scale := by
    cases f <;> decide
  constructor
  · calc (-50 : ℚ) = (temperatureCelsius f 0).toRat := by norm_num [hmin, Exact.toRat]
      _ ≤ _ := temperatureCelsius_mono f (Nat.zero_le t) ht
  · calc (temperatureCelsius f t).toRat ≤ (temperatureCelsius f 0xFFFFF).toRat :=
          temperatureCelsius_mono f (Nat.le_of_lt_succ ht) (by decide)
      _ < 150 := toRat_lt_of_num_lt hmax

/-- The humidity is the exact percentage rounded once (43_convert.md R142). -/
theorem humidityPercent_isRounded (f : FpFmt) {h : ℕ} (hh : h < 2 ^ 20) :
    IsRounded f (h * 100 / 2 ^ 20) (resOfFloat f (humidityPercent f h)) := by
  have hq : (⟨h * 100, 20⟩ : Exact).toRat = h * 100 / 2 ^ 20 := by simp [Exact.toRat]
  rw [humidityPercent_eq f hh, ← rne_eq, ← hq]
  refine rne_isRounded ⟨(by decide : 20 ≤ 100), ?_⟩
  show ((h : ℤ) * 100).natAbs < 2 ^ 100
  omega

/-- BINARY64 holds every integer of fewer than 54 bits. -/
theorem roundInt_binary64_of_lt {n : ℤ} (h : n.natAbs < 2 ^ 53) : roundInt .binary64 n = n := by
  have hr : roundSig (precision .binary64) n.natAbs = n.natAbs := roundSig_of_lt h
  rw [roundInt, hr, Int.sign_mul_natAbs]

/-- In BINARY64 the humidity is exact (43_convert.md R142). -/
theorem humidityPercent_binary64 {h : ℕ} (hh : h < 2 ^ 20) :
    (humidityPercent .binary64 h).toRat = h * 100 / 2 ^ 20 := by
  rw [humidityPercent_eq _ hh, roundInt_binary64_of_lt (by omega)]
  simp [Exact.toRat]

/-- In BINARY64 the temperature is exact (43_convert.md R143). -/
theorem temperatureCelsius_binary64 {t : ℕ} (ht : t < 2 ^ 20) :
    (temperatureCelsius .binary64 t).toRat = t * 200 / 2 ^ 20 - 50 := by
  rw [temperatureCelsius_eq _ ht, roundInt_binary64_of_lt (n := t * 200) (by omega),
    roundInt_binary64_of_lt (by omega), Exact.toRat]
  push_cast
  ring

/-! The commands -/

/-- Settles O53: the three operations of the humidity function are roundings of the rational operations. -/
theorem humPctRoundsEachOperation : Obligations.HumPctRoundsEachOperation := by
  refine ⟨rfl, opDecodesTo_of_opOnly rfl rfl, fun s => ⟨_, exec_humPct s, ?_⟩⟩
  have hh := humBits_lt s.frame
  obtain ⟨hx, hy, hp⟩ := humidity_inRange s.fpFmt hh
  obtain ⟨-, -, hfit, hsign, -⟩ := resOfFloat_spec (humidityPercent_representable s.fpFmt hh)
  have hpos : ¬ (humidityPercent s.fpFmt (humBits s.frame).toNat).num < 0 :=
    not_lt.mpr (humidityPercent_num_nonneg s.fpFmt hh)
  exact ⟨hfit, hsign.trans (decide_eq_false hpos),
    ⟨_, _, isRounded_exactOfNat hx, isRounded_divPow2 hx hy, isRounded_mulNat hy hp⟩,
    onlyResChanged_setRes s _⟩

/-- Settles O54: only the multiplication by 100 rounds, and in BINARY64 it does not. -/
theorem humPctIsThePercentageRoundedOnce : Obligations.HumPctIsThePercentageRoundedOnce := by
  refine fun s => ⟨_, exec_humPct s, humidityPercent_isRounded s.fpFmt (humBits_lt s.frame), fun hf => ?_⟩
  rw [State.setRes_res, hf, floatValue_humidityPercent _ (humBits_lt s.frame),
    humidityPercent_binary64 (humBits_lt s.frame)]

/-- Settles O55: the three operations of the temperature function are roundings of the rational operations. -/
theorem tempCRoundsEachOperation : Obligations.TempCRoundsEachOperation := by
  refine ⟨rfl, opDecodesTo_of_opOnly rfl rfl, fun s => ⟨_, exec_tempC s, ?_⟩⟩
  have ht := tempBits_lt s.frame
  obtain ⟨hy, ha, hc⟩ := temperature_inRange s.fpFmt ht
  have hR := temperatureCelsius_representable s.fpFmt ht
  obtain ⟨-, -, hfit, -, -⟩ := resOfFloat_spec hR
  have hround := rne_isRounded (f := s.fpFmt) hy
  rw [toRat_divPow2, toRat_exactOfNat] at hround
  exact ⟨hfit, floatSign_of_floatValue_eq_zero hR,
    ⟨_, _, hround, isRounded_mulNat hy ha, isRounded_subNat ha hc⟩, onlyResChanged_setRes s _⟩

/-- The temperature at 0xA3D71 in BINARY32 (43_convert.md R143). -/
theorem resOfFloat_doubleRounding :
    resOfFloat .binary32 (temperatureCelsius .binary32 0xA3D71) = 0x429C0008 := by decide

/-- The value of a normal binary32 word without sign, from its fields (43_convert.md R140). -/
theorem floatValue_binary32_of_fields {w : ResWord} {e m : ℕ} (hs : floatSign .binary32 w = false)
    (he : floatExp .binary32 w = e) (hm : floatFrac .binary32 w = m) (h0 : e ≠ 0) :
    floatValue .binary32 w = (2 ^ 23 + m) * 2 ^ ((e : ℤ) - 150) := by
  simp [floatValue, floatMagnitude, hs, he, hm, h0]

/-- The next word of binary32 is nearer to the exact temperature at 0xA3D71 than the one that rounding twice gives
(43_convert.md R143). -/
theorem not_isRounded_doubleRounding :
    ¬ IsRounded .binary32 ((0xA3D71 : ℕ) * 200 / 2 ^ 20 - 50) 0x429C0008 := by
  intro h
  have hfin : FloatFinite .binary32 0x429C0009 := (floatFinite_iff _ _).mpr (by decide)
  have htwice : floatValue .binary32 0x429C0008 = 10223624 / 2 ^ 17 := by
    rw [floatValue_binary32_of_fields (e := 133) (m := 0x1C0008) rfl rfl rfl (by decide)]
    norm_num
  have honce : floatValue .binary32 0x429C0009 = 10223625 / 2 ^ 17 := by
    rw [floatValue_binary32_of_fields (e := 133) (m := 0x1C0009) rfl rfl rfl (by decide)]
    norm_num
  have hnear := (h.2 _ hfin).1
  rw [htwice, honce] at hnear
  norm_num [abs_le] at hnear

/-- Settles O56: BINARY64 rounds nothing; at 0xA3D71 BINARY32 rounds twice, and another word is nearer. -/
theorem tempCIsExactOnlyInBinary64 : Obligations.TempCIsExactOnlyInBinary64 := by
  refine ⟨fun s hf => ⟨_, exec_tempC s, ?_⟩, fun s hf ht => ⟨_, exec_tempC s, ?_, ?_⟩⟩
  · rw [State.setRes_res, hf, floatValue_temperatureCelsius _ (tempBits_lt s.frame),
      temperatureCelsius_binary64 (tempBits_lt s.frame)]
  · rw [State.setRes_res, hf, ht]
    exact resOfFloat_doubleRounding
  · rw [State.setRes_res, hf, ht, resOfFloat_doubleRounding]
    exact not_isRounded_doubleRounding

/-- Settles O57: the ranges of the two values, and that a representable value's word is ordinary. -/
theorem converterResultsAreOrdinaryAndInRange : Obligations.ConverterResultsAreOrdinaryAndInRange := by
  intro s th tt hth htt
  cases hth
  cases htt
  have hh := humBits_lt s.frame
  have ht := tempBits_lt s.frame
  rw [State.setRes_res, State.setRes_res, floatValue_humidityPercent _ hh, floatValue_temperatureCelsius _ ht]
  exact ⟨humidityPercent_range _ hh, temperatureCelsius_range _ ht, List.forall_mem_cons.mpr
    ⟨resOfFloat_ordinary (humidityPercent_representable _ hh),
      List.forall_mem_singleton.mpr (resOfFloat_ordinary (temperatureCelsius_representable _ ht))⟩⟩

/-- Settles O58: every rounding of the two functions is monotone. -/
theorem converterIsMonotone : Obligations.ConverterIsMonotone := by
  intro s s' t t' hf
  constructor
  · rintro hle ⟨⟩ ⟨⟩
    have hh' := humBits_lt s'.frame
    rw [State.setRes_res, State.setRes_res, ← hf, floatValue_humidityPercent _ (hle.trans_lt hh'),
      floatValue_humidityPercent _ hh']
    exact humidityPercent_mono _ hle hh'
  · rintro hle ⟨⟩ ⟨⟩
    have ht' := tempBits_lt s'.frame
    rw [State.setRes_res, State.setRes_res, ← hf, floatValue_temperatureCelsius _ (hle.trans_lt ht'),
      floatValue_temperatureCelsius _ ht']
    exact temperatureCelsius_mono _ hle ht'

end Sys2Proof.Machine
end

