-- ==== Sys2Proof/Proofs/SystemCommands.lean ====
section
/-! PROOF. The system commands: NOP is no update, BSR_READ and CFG_READ are each one write of a byte to RES
(44_system.md). -/
namespace Sys2Proof.Machine

/-- Settles O24: NOP is selected by its OP alone, and no update is its meaning. -/
theorem nopChangesNothing : Obligations.NopChangesNothing :=
  ⟨rfl, opDecodesTo_of_opOnly rfl rfl, exec_nop⟩

/-- Settles O25: BSR_READ is the write of BSR to RES. -/
theorem bsrReadCopiesBsr : Obligations.BsrReadCopiesBsr :=
  ⟨rfl, opDecodesTo_of_opOnly rfl rfl,
    fun s => ⟨_, exec_bsrRead s, resOfByte_eq_append _, onlyResChanged_setRes s _⟩⟩

/-- CFG of an instance with the format binary32 (10_state.md R26). -/
theorem State.cfg_of_binary32 {s : State} (h : s.fpFmt = .binary32) : s.cfg = 0x00 := by
  rw [State.cfg, h]
  rfl

/-- CFG of an instance with the format binary64 (10_state.md R26). -/
theorem State.cfg_of_binary64 {s : State} (h : s.fpFmt = .binary64) : s.cfg = 0x01 := by
  rw [State.cfg, h]
  rfl

/-- Settles O26: CFG_READ is the write of CFG to RES, and the format fixes CFG. -/
theorem cfgReadReportsTheFormat : Obligations.CfgReadReportsTheFormat :=
  ⟨rfl, opDecodesTo_of_opOnly rfl rfl,
    fun s => ⟨_, exec_cfgRead s, resOfByte_eq_append _, fun h => congrArg resOfByte (State.cfg_of_binary32 h),
      fun h => congrArg resOfByte (State.cfg_of_binary64 h), onlyResChanged_setRes s _⟩⟩

end Sys2Proof.Machine
end

