-- ==== Sys2Proof/Proofs/Exceptions.lean ====
section
/-! PROOF. The two errors: a word with an error code raises that error under its own OP, every other word leaves BSR as it
was; and the registers that the read commands show are the whole block (60_exceptions.md R170 to R175, R181). -/
namespace Sys2Proof.Machine

/-! Completion (R172, R174, R181) -/

/-- Settles O10: by the cases of what the host presents. -/
theorem everyStepAnswersANextState : Obligations.EveryStepAnswersANextState :=
  exists_step_eq_next

/-- Settles O7: the step's arm for nothing pending. -/
theorem stepWithNothingPendingHoldsTheState : Obligations.StepWithNothingPendingHoldsTheState :=
  fun _ => step_idle

/-- Settles O11: every command has a next state, and the matrix marks BSR w for none. -/
theorem legalCommandsCompleteWithoutError : Obligations.LegalCommandsCompleteWithoutError := by
  intro i s hi
  obtain ⟨t, ht, -⟩ := exec_shape i s
  exact ⟨t, ht, bsr_eq_of_wellFormed hi ht⟩

/-! Words that raise an error and words that raise none (R170) -/

/-- A word has an error code exactly under the conditions of the two errors. -/
theorem isSome_raisesCode_iff (w : CmdWord) :
    (raisesCode w).isSome ↔ 0x18 ≤ (opField w).toNat ∨ ((opField w = 0x09 ∨ opField w = 0x0B) ∧ idxField w = 7) := by
  unfold raisesCode
  split_ifs with hop hidx
  · exact iff_of_true rfl (.inl hop)
  · exact iff_of_true rfl (.inr hidx)
  · exact iff_of_false Bool.false_ne_true (not_or.mpr ⟨hop, hidx⟩)

/-- A command with an illegal index raises BAD_INDEX under the OP of its word. -/
theorem exec_raises_opField {w : CmdWord} {i : Instr} (hd : decode w = .ok i) (hi : i.wellFormed = false) (s : State) :
    exec i s = .next (s.raise .badIndex (opField w)) := by
  obtain ⟨d, rfl⟩ | rfl := (wellFormed_eq_false_iff i).mp hi
  · obtain ⟨hop, -⟩ := fields_of_decode_eq_frameWrite hd
    rw [hop, exec_frameWrite_seven]
  · obtain ⟨hop, -⟩ := fields_of_decode_eq_frameRead hd
    rw [hop, exec_frameRead_seven]

section
variable {s : State} {w : CmdWord} {f : FrameIn} {rest : List HostEvent}

/-- The step of a word with an error code raises the error of that code and does nothing else. -/
theorem step_of_raisesCode_eq_some {code : BitVec 2} (hp : s.pending = .command w f :: rest)
    (h : raisesCode w = some code) :
    ∃ e : ErrCause, e.code = code ∧ step s = .next ((s.accept f rest).raise e (opField w)) := by
  by_cases hop : 0x18 ≤ (opField w).toNat
  · rw [raisesCode_of_reserved hop] at h
    exact ⟨.illegalOp, Option.some.inj h, step_reserved hp (decode_reserved hop)⟩
  · obtain ⟨hopc, hidx⟩ := ((isSome_raisesCode_iff w).mp (by simp [h])).resolve_left hop
    obtain ⟨i, hd⟩ := exists_decode_eq_ok (Nat.lt_of_not_le hop)
    rw [raisesCode_of_fields hopc hidx] at h
    exact ⟨.badIndex, Option.some.inj h,
      (step_command hp hd).trans (exec_raises_opField hd (wellFormed_eq_false_of_fields hd hopc hidx) _)⟩

/-- The step of a word with no error code leaves BSR as it was. -/
theorem step_of_raisesCode_eq_none (hp : s.pending = .command w f :: rest) (h : raisesCode w = none) :
    ∃ t, step s = .next t ∧ t.bsr = s.bsr := by
  have hop : ¬ 0x18 ≤ (opField w).toNat := fun hop => by simp [raisesCode_of_reserved hop] at h
  obtain ⟨i, hd⟩ := exists_decode_eq_ok (Nat.lt_of_not_le hop)
  have hi : i.wellFormed = true := by
    by_contra hne
    simp [raisesCode_of_not_wellFormed hd (Bool.eq_false_of_not_eq_true hne)] at h
  obtain ⟨t, ht, hbsr⟩ := legalCommandsCompleteWithoutError i (s.accept f rest) hi
  exact ⟨t, (step_command hp hd).trans ht, hbsr⟩

end

/-- Settles O12: a word with an error code leaves ERR = 1, and one with none leaves BSR as it was. -/
theorem errIsSetExactlyByTheTwoErrors : Obligations.ErrIsSetExactlyByTheTwoErrors := by
  intro s w f rest hp
  cases hr : raisesCode w with
  | none =>
    obtain ⟨t, ht, hbsr⟩ := step_of_raisesCode_eq_none hp hr
    refine ⟨t, ht, ?_⟩
    rw [hbsr]
    exact (or_iff_left fun h => by simpa [hr] using (isSome_raisesCode_iff w).mpr h).symm
  | some code =>
    obtain ⟨e, -, ht⟩ := step_of_raisesCode_eq_some hp hr
    exact ⟨_, ht, iff_of_true (bsrErr_bsrRaise e _ _) (.inr ((isSome_raisesCode_iff w).mp (by simp [hr])))⟩

/-! First-error capture (R171, R175) -/

/-- The first error since reset records its code and OP. -/
theorem fields_bsrRaise_first {e : ErrCause} {op : Op} {b : Byte} (h : bsrErr b = 0) :
    bsrEcause (bsrRaise e op b) = e.code ∧ bsrEop (bsrRaise e op b) = op := by
  rw [bsrRaise_first h]
  exact ⟨bsrEcause_bsrOf _ _ _, bsrEop_bsrOf _ _ _⟩

/-- After an error the outputs are RES as it was and err = 1. -/
theorem State.outputs_raise (s : State) (e : ErrCause) (op : Op) : (s.raise e op).outputs = (s.res, 1) := by
  rw [State.outputs_eq, State.raise_res, State.raise_bsr, bsrErr_bsrRaise]

/-- Settles O13: the step is the raising of the error, whose one write is to BSR. -/
theorem anErrorWritesBsrAndNothingElse : Obligations.AnErrorWritesBsrAndNothingElse := by
  intro s w f rest code hp hcode
  obtain ⟨e, rfl, ht⟩ := step_of_raisesCode_eq_some hp hcode
  exact ⟨_, ht, bsrErr_bsrRaise _ _ _, fields_bsrRaise_first, bsrRaise_later, rfl, fun _ => rfl, rfl, rfl, rfl,
    State.outputs_raise _ _ _, rfl, rfl⟩

/-- Settles O14: a step that changes BSR is a reset, ERR = 1 excluding a first error. -/
theorem onlyResetClearsBsr : Obligations.OnlyResetClearsBsr := by
  intro s t h herr
  by_cases hbsr : t.bsr = s.bsr
  · exact .inl hbsr
  · obtain ⟨rest, hp⟩ | ⟨hzero, -⟩ := bsrChangesOnlyByFirstErrorOrReset s t h hbsr
    · obtain rfl := Host.Outcome.next.inj ((step_reset hp).symm.trans h)
      exact .inr ⟨rest, hp, State.resetBlock_bsr _⟩
    · exact absurd (hzero.symm.trans herr) (by decide)

/-! What the host can observe (R181) -/

/-- CFG tells the two formats apart. -/
theorem cfgOf_injective : Function.Injective cfgOf := by
  intro f f' h
  cases f <;> cases f' <;> revert h <;> decide

/-- The commands with which the host reads the block's state. -/
def readCommands : List Instr :=
  [.crcRead, .statRead, .bsrRead, .cfgRead, .frameRead 0, .frameRead 1, .frameRead 2, .frameRead 3, .frameRead 4,
   .frameRead 5, .frameRead 6]

/-- Every frame byte has its FRAME_READ among them. -/
theorem exists_frameRead_mem_readCommands :
    ∀ a < 7, ∃ idx : Idx, idx ≠ 7 ∧ idx.toNat = a ∧ Instr.frameRead idx ∈ readCommands := by decide

/-- A state is its registers and the host's side of the interface. -/
theorem State.eq_of_registers_eq {s s' : State} (hcrc : s.crc = s'.crc) (hframe : s.frame = s'.frame)
    (hstat : s.stat = s'.stat) (hres : s.res = s'.res) (hbsr : s.bsr = s'.bsr) (hfmt : s.fpFmt = s'.fpFmt) :
    s' = { s with frameIn := s'.frameIn, pending := s'.pending } := by
  rw [hcrc, hframe, hstat, hres, hbsr, hfmt]

/-- Settles O23: each read command shows one register or frame byte, and a canonical frame is its seven bytes. -/
theorem readCommandsObserveAllState : Obligations.ReadCommandsObserveAllState := by
  intro s s' hwf hwf' hres hreads
  have hshown {i : Instr} {b b' : Byte} (hi : i ∈ readCommands) (h : exec i s = .next (s.setRes (resOfByte b)))
      (h' : exec i s' = .next (s'.setRes (resOfByte b'))) : b = b' :=
    resOfByte_injective (hreads i hi _ _ h h')
  have hbytes : ∀ a < 7, s.frame.read a = s'.frame.read a := fun a ha => by
    obtain ⟨idx, hidx, rfl, hmem⟩ := exists_frameRead_mem_readCommands a ha
    exact hshown hmem (exec_frameRead_legal s hidx) (exec_frameRead_legal s' hidx)
  have hcfg : s.cfg = s'.cfg := hshown (by simp [readCommands]) (exec_cfgRead s) (exec_cfgRead s')
  exact State.eq_of_registers_eq (hshown (by simp [readCommands]) (exec_crcRead s) (exec_crcRead s'))
    (Memory.eq_of_wf hwf hwf' hbytes) (hshown (by simp [readCommands]) (exec_statRead s) (exec_statRead s')) hres
    (hshown (by simp [readCommands]) (exec_bsrRead s) (exec_bsrRead s')) (cfgOf_injective hcfg)

end Sys2Proof.Machine
end

