-- ==== Sys2Proof/Proofs/ResetAndHazards.lean ====
section
/-! PROOF. Reset gives every register its reset value; the frame input is sampled by FRAME_LOAD and by no other command;
and the order for a trusted reading tests the frame just loaded (70_reset_and_hazards.md R190, R193, R195). -/
namespace Sys2Proof.Machine

/-! Reset (R190) -/

/-- After reset the outputs are RES = 0 and ERR = 0. -/
theorem State.outputs_resetBlock (s : State) : s.resetBlock.outputs = (0, 0) := rfl

/-- Settles O8: the step is the reset, which gives each register its value and keeps the rest. -/
theorem resetEventRestoresEveryRegister : Obligations.ResetEventRestoresEveryRegister :=
  fun _ _ hp => ⟨_, step_reset hp, State.resetBlock_crc _, Memory.read_zeros, State.resetBlock_stat _,
    State.resetBlock_res _, State.resetBlock_bsr _, rfl, rfl, State.outputs_resetBlock _, rfl, rfl⟩

/-- Settles O9: the state of reset is a literal, and every field of a zero STAT or BSR is zero. -/
theorem resetStateHoldsTheSpecsValues : Obligations.ResetStateHoldsTheSpecsValues :=
  ⟨rfl, Memory.read_zeros, rfl, rfl, rfl, rfl, rfl, rfl, rfl, rfl, rfl, rfl, rfl⟩

/-! The frame input (R195) -/

/-- A command other than FRAME_LOAD does the same whatever the frame input is, and leaves the input as it is. -/
theorem exec_with_frameIn {i : Instr} {s t : State} (hi : i ≠ .frameLoad) (h : exec i s = .next t) (f : FrameIn) :
    exec i { s with frameIn := f } = .next { t with frameIn := f } := by
  cases i with
  | frameLoad => exact absurd rfl hi
  | frameWrite idx d =>
    obtain rfl | hidx := eq_or_ne idx 7
    · cases h
      rfl
    · rw [exec_frameWrite_legal _ hidx] at h ⊢
      cases h
      rfl
  | frameRead idx =>
    obtain rfl | hidx := eq_or_ne idx 7
    · cases h
      rfl
    · rw [exec_frameRead_legal _ hidx] at h ⊢
      cases h
      rfl
  | nop | crcInit | crcStep _ | crcRead | crcFrame | crcCheck | bsrRead | cfgRead | frameClear | humBits | tempBits
  | humPct | tempC | statLoad _ | statFromFrame | statRead | isBusy | isCal | isNormal | isCyclic | isCommand =>
    cases h
    rfl

/-- The step of a word that is not FRAME_LOAD leaves one state, but for the frame input it was given. -/
theorem exists_step_with_frameIn {w : CmdWord} (hw : decode w ≠ .ok .frameLoad) (s : State) (rest : List HostEvent) :
    ∃ t : State, ∀ f : FrameIn,
      step { s with pending := .command w f :: rest } = .next { t with frameIn := f } := by
  cases hd : decode w with
  | ok i =>
    have hi : i ≠ .frameLoad := by
      rintro rfl
      exact hw hd
    obtain ⟨t, ht, -⟩ := exec_shape i { s with pending := rest }
    exact ⟨t, fun f => (step_command rfl hd).trans (exec_with_frameIn hi ht f)⟩
  | error r =>
    obtain ⟨op⟩ := r
    exact ⟨State.raise { s with pending := rest } .illegalOp op, fun _ => (step_reserved rfl hd).trans rfl⟩

/-- The seven bytes hold all 56 bits: bit `j` of the input is bit `j % 8` of byte `6 - j / 8` (20_memory.md R42). -/
theorem frameIn_eq_of_bytes {f f' : FrameIn}
    (h : ∀ i < 7, f.extractLsb' (48 - 8 * i) 8 = f'.extractLsb' (48 - 8 * i) 8) : f = f' := by
  apply BitVec.eq_of_getLsbD_eq
  intro j hj
  have hplace : 48 - 8 * (6 - j / 8) + j % 8 = j := by omega
  have hlt : j % 8 < 8 := Nat.mod_lt j (by decide)
  have hbit := congrArg (BitVec.getLsbD · (j % 8)) (h (6 - j / 8) (by omega))
  simpa [BitVec.getLsbD_extractLsb', hlt, hplace] using hbit

/-- Settles O21: no other word's step looks at the input, and the bytes that FRAME_LOAD leaves determine it. -/
theorem frameInputIsSampledOnlyByFrameLoad : Obligations.FrameInputIsSampledOnlyByFrameLoad := by
  constructor
  · intro s w f f' rest hw
    obtain ⟨t, ht⟩ := exists_step_with_frameIn hw s rest
    exact ⟨t, ht f, ht f'⟩
  · intro s s' t t' h h' hbytes
    cases h
    cases h'
    refine frameIn_eq_of_bytes fun i hi => ?_
    rw [← read_ofBytesFrom_frameInBytes _ hi, ← read_ofBytesFrom_frameInBytes _ hi]
    exact hbytes i hi

/-! The order for a trusted reading (R193) -/

/-- The frame that FRAME_LOAD makes of a frame input. -/
def loadedFrame (f : FrameIn) : Memory := Memory.ofBytesFrom 0 (frameInBytes f)

theorem read_loadedFrame (f : FrameIn) {i : Nat} (hi : i < 7) :
    (loadedFrame f).read i = f.extractLsb' (48 - 8 * i) 8 :=
  read_ofBytesFrom_frameInBytes f hi

/-- The bytes that CRC_CHECK covers are the input's upper six. -/
theorem frameBytes6_loadedFrame (f : FrameIn) :
    frameBytes6 (loadedFrame f) = [f.extractLsb' 48 8, f.extractLsb' 40 8, f.extractLsb' 32 8, f.extractLsb' 24 8,
      f.extractLsb' 16 8, f.extractLsb' 8 8] := by
  simp [frameBytes6, read_loadedFrame]

/-- The busy bit of the loaded frame is the input's top bit. -/
theorem busy_loadedFrame (f : FrameIn) : ((loadedFrame f).read 0).extractLsb' 7 1 = f.extractLsb' 55 1 := by
  rw [read_loadedFrame f (by decide)]
  ext i hi
  obtain rfl : i = 0 := Nat.lt_one_iff.mp hi
  simp

/-- Steps 1 and 2 of R193 leave the loaded frame, its byte 0 in STAT, and its busy test in RES. -/
theorem execList_busyOfInput (is : List Instr) (s : State) :
    execList (.frameLoad :: .statFromFrame :: .isBusy :: is) s =
      execList is (((s.setFrame (loadedFrame s.frameIn)).setStat ((loadedFrame s.frameIn).read 0)).setRes
        (resOfBool (isBusyTest ((loadedFrame s.frameIn).read 0)))) := rfl

/-- After CRC_CHECK on a loaded frame RES is 1 exactly when the input's upper six bytes have its lowest as their CRC. -/
theorem resOfBool_crcCheck_loadedFrame (f : FrameIn) :
    resOfBool (crc8 (frameBytes6 (loadedFrame f)) == (loadedFrame f).read 6) = 1 ↔
      crc8 [f.extractLsb' 48 8, f.extractLsb' 40 8, f.extractLsb' 32 8, f.extractLsb' 24 8, f.extractLsb' 16 8,
        f.extractLsb' 8 8] = f.extractLsb' 0 8 := by
  rw [resOfBool_eq_one, beq_iff_eq, frameBytes6_loadedFrame, read_loadedFrame f (by decide)]

/-- Settles O52: the run of the first three words, and of all four, executes them; the last one writes RES only. -/
theorem trustedReadingOrderChecksTheFrame : Obligations.TrustedReadingOrderChecksTheFrame := by
  intro s f rest hp
  have hp3 : s.pending = commandsOf [.frameLoad, .statFromFrame, .isBusy] f ++ (commandsOf [.crcCheck] f ++ rest) := hp
  refine ⟨_, _, (run_commandsOf hp3).trans (execList_busyOfInput [] _), ?_,
    (run_commandsOf hp).trans (execList_busyOfInput [.crcCheck] _), resOfBool_crcCheck_loadedFrame f, rfl, rfl, rfl⟩
  exact (resOfBool_isBusyTest _).trans (congrArg ((0#63) ++ ·) (busy_loadedFrame f))

end Sys2Proof.Machine
end
